-- ==== Sys2Proof/Word.lean ====
section
/-! DEFINITION. The words of the serial frame parser: a byte and a nibble (spec/00_scope.md rule R8). -/

namespace Sys2Proof

/-- One element of the window: an unsigned 8-bit value, bit 7 the most significant (R8). -/
abbrev Byte := BitVec 8

/-- Half a byte: a marker, the frame tag, or the ignored half of the postamble byte (R8, R39). -/
abbrev Nibble := BitVec 4

end Sys2Proof
end

