-- ==== Sys2Proof/Config.lean ====
section
/-! DEFINITION. What an implementation of the block fixes (the parameters of spec/00_scope.md rule R6), the source's numeric
literals in one record (rule R7, decision D22), the ports the caller drives (spec/10_state.md rule R21), and the free values of
the model: opaque constants with no body, so that nothing in Lean can prove a value of one. -/

namespace Sys2Proof

/-- The named constants of R7. UNVERIFIED (log 10): the spec takes them exactly as its source writes them and says they are
unaudited. -/
structure FrameLiterals where
  preamble : Nibble
  sof : Nibble
  eof : Nibble
  postamble : Nibble
  minLen : Nat
  overhead : Nat
  hdrLen : Nat
  typePing : BitVec 3
  typeData : BitVec 3
  typeAck : BitVec 3
  typeNak : BitVec 3
deriving DecidableEq, Repr

/-- The values of R7. -/
abbrev Config.literals : FrameLiterals where
  preamble := 0xF#4
  sof := 0x9#4
  eof := 0x6#4
  postamble := 0xF#4
  minLen := 6
  overhead := 6
  hdrLen := 3
  typePing := 0b000#3
  typeData := 0b001#3
  typeAck := 0b010#3
  typeNak := 0b011#3

/-- The two open parameters of R6: `MAXLEN`, the number of cells of `W`, and `TW`, the width of a timing marker. -/
structure Params where
  maxLen : Nat
  tw : Nat
deriving DecidableEq, Repr

/-- The constraints R6 puts on the parameters: `MAXLEN >= 6`, `TW >= 1`. -/
def Params.valid (p : Params) : Bool := decide (6 ≤ p.maxLen) && decide (1 ≤ p.tw)

/-- DESIGN CHOICE (log 1): the parameters of the machine right after reset, those of spec/95_test_vectors.md. Statements over
every state hold for every choice. -/
def Config.vectorParams : Params where
  maxLen := 16
  tw := 16

/-- What the caller holds on the input ports during one cycle (R21). `clk` is the step itself. The marker ports `in_ts`, `in_te`
and the index port `rd_idx` have open widths (`TW`, `LW`), so they are numbers; sampling keeps the bits the port has (log 5). -/
structure Inputs where
  rst : Bool
  inValid : Bool
  inKeep : Bool
  inLast : Bool
  inData : Byte
  inTs : Nat
  inTe : Nat
  outReady : Bool
  rdIdx : Nat
deriving DecidableEq, Repr, Inhabited

/-- Every input port at 0. -/
def Inputs.zero : Inputs where
  rst := false
  inValid := false
  inKeep := false
  inLast := false
  inData := 0#8
  inTs := 0
  inTe := 0
  outReady := false
  rdIdx := 0

/-- FREE VALUE (log 2): the byte that cell `W[i]` holds before anything has written it (R26, spec/93 U9). -/
opaque Config.powerUpCell : Nat → Byte

/-- FREE VALUE (log 4): what the caller holds on the input ports in a cycle that `State.pending` says nothing about; the caller may
put any values on the input ports in any cycle (R84). -/
opaque Config.callerPorts : Nat → Inputs

end Sys2Proof
end

