-- ==== Sys2Proof/Syntax.lean ====
section
/-! DEFINITION. The syntax: frame types, rejections, and the thirteen instructions of spec/opcode_table.json. -/

namespace Sys2Proof

/-- The closed enumeration of R46. `unknown` carries the raw type code, 4 to 7 (`FrameType.legal`). -/
inductive FrameType where
  | ping
  | data
  | ack
  | nak
  | unknown (raw : BitVec 3)
deriving DecidableEq, Repr

/-- The closed error taxonomy of R100: six rejections, no payload. -/
inductive DecodeError where
  | tooShort
  | negativeDataLength
  | badPreamble
  | badStartMarker
  | badEndMarker
  | badPostamble
deriving DecidableEq, Repr

/-- The three trailer bytes of a frame, field by field (R39): crc byte, tag/EOF byte, postamble byte with its ignored low nibble
(R51). -/
structure Trailer where
  crc : Byte
  tag : Nibble
  eof : Nibble
  postamble : Nibble
  pad : Nibble
deriving DecidableEq, Repr

/-- One constructor per row of the opcode table.

Frame rows (R48) carry the fields of formats P and V (R41, R42); byte 0 is fixed (`0xF9`) in every row and is no operand. Port
operations (R54) carry the don't-care bits of their control word, named as R54 names them: `d` DONE, `v` in_valid, `k` in_keep,
`l` in_last, `a` out_ready. The two rows with the mnemonic ACK are `frameAck` and `portAck` (D23). -/
inductive Instr where
  /-- `PING`, format P, R66; `tail` is what stands in the window after the frame (R55). -/
  | ping (rsv : BitVec 5) (user : Byte) (trailer : Trailer) (tail : List Byte)
  /-- `DATA`, format V, R67. -/
  | data (rsv : BitVec 5) (user : Byte) (words : List Byte) (trailer : Trailer)
  /-- the frame `ACK`, format V, R68. -/
  | frameAck (rsv : BitVec 5) (user : Byte) (words : List Byte) (trailer : Trailer)
  /-- `NAK`, format V, R69. -/
  | nak (rsv : BitVec 5) (user : Byte) (words : List Byte) (trailer : Trailer)
  /-- `UNKNOWN`, format V, R70; `raw` is the type code, 4 to 7. -/
  | unknown (raw : BitVec 3) (rsv : BitVec 5) (user : Byte) (words : List Byte) (trailer : Trailer)
  /-- `RESET`, `C = 1dvkla`, R86. -/
  | reset (d v k l a : Bool)
  /-- `IDLE`, `C = 000kla`, R87. -/
  | idle (k l a : Bool)
  /-- `NULL`, `C = 00100a`, R88. -/
  | null (a : Bool)
  /-- `APPEND`, `C = 00110a`, R89. -/
  | append (a : Bool)
  /-- `CLOSE`, `C = 00101a`, R90. -/
  | close (a : Bool)
  /-- `APPEND_CLOSE`, `C = 00111a`, R91. -/
  | appendClose (a : Bool)
  /-- `HOLD`, `C = 01vkl0`, R92. -/
  | hold (v k l : Bool)
  /-- the port operation `ACK`, `C = 01vkl1`, R93. -/
  | portAck (v k l : Bool)
deriving DecidableEq, Repr

end Sys2Proof
end

