-- ==== Sys2Proof/WellFormed.lean ====
section
/-! DEFINITION. Which instruction terms the encodings of spec/30_encoding.md admit. -/

namespace Sys2Proof

/-- `Unknown(c)` with `c < 4` does not exist (R46). -/
def FrameType.legal : FrameType → Bool
  | .ping => true
  | .data => true
  | .ack => true
  | .nak => true
  | .unknown raw => decide (4 ≤ raw.toNat)

/-- The two markers of a frame's trailer have their constant values (R39, R41, R42). -/
def Trailer.wf (t : Trailer) : Bool :=
  decide (t.eof = Config.literals.eof) && decide (t.postamble = Config.literals.postamble)

/-- A frame row is well formed when its trailer matches `gggg0110` and `1111xxxx` (R48) and, for `UNKNOWN`, its raw code is 4 to 7
(R50). Every control word is one of the eight patterns of R54, so a port operation has nothing to check. -/
def Instr.wf : Instr → Bool
  | .ping _ _ t _ => t.wf
  | .data _ _ _ t => t.wf
  | .frameAck _ _ _ t => t.wf
  | .nak _ _ _ t => t.wf
  | .unknown raw _ _ _ t => decide (4 ≤ raw.toNat) && t.wf
  | .reset _ _ _ _ _ => true
  | .idle _ _ _ => true
  | .null _ => true
  | .append _ => true
  | .close _ => true
  | .appendClose _ => true
  | .hold _ _ _ => true
  | .portAck _ _ _ => true

/-- `Instr.wf` as a proposition. -/
abbrev Instr.WellFormed (i : Instr) : Prop := i.wf = true

end Sys2Proof
end

