-- ==== Sys2Proof/Decode.lean ====
section
/-! DEFINITION. The decoder and the encoder of both instruction families: a window of bytes to a frame row (spec/30_encoding.md rules
R39 to R50), a 6-bit control word to a port operation (rule R54). -/

namespace Sys2Proof

/-- High nibble of a byte, bits 7 to 4 (R8). -/
def hi (b : Byte) : Nibble := b.extractLsb' 4 4

/-- Low nibble of a byte, bits 3 to 0 (R8). -/
def lo (b : Byte) : Nibble := b.extractLsb' 0 4

/-- The type code of byte 1, its bits 7 to 5 (R44). -/
def typeCode (b : Byte) : BitVec 3 := b.extractLsb' 5 3

/-- The reserved bits of byte 1, its bits 4 to 0 (R44). -/
def reservedBits (b : Byte) : BitVec 5 := b.extractLsb' 0 5

/-- `N`, the number of data words (R62). The subtraction is over the integers with an explicit negative check (R63). -/
def dataWordCount (code : BitVec 3) (len : Nat) : Except DecodeError Nat :=
  if code = Config.literals.typePing then .ok 0
  else
    let d : Int := (len : Int) - (Config.literals.overhead : Int)
    if d < 0 then .error .negativeDataLength else .ok d.toNat

/-- The trailer's fields from its three bytes (R44). -/
def trailerOf (crc tagEof post : Byte) : Trailer where
  crc := crc
  tag := hi tagEof
  eof := lo tagEof
  postamble := hi post
  pad := lo post

/-- The row that a type code selects, with its fields (R48). Format P has no words, format V no tail (R40). -/
def frameRow (code : BitVec 3) (rsv : BitVec 5) (user : Byte) (words : List Byte) (t : Trailer) (tail : List Byte) : Instr :=
  if code = Config.literals.typePing then .ping rsv user t tail
  else if code = Config.literals.typeData then .data rsv user words t
  else if code = Config.literals.typeAck then .frameAck rsv user words t
  else if code = Config.literals.typeNak then .nak rsv user words t
  else .unknown code rsv user words t

/-- The frame row of a window, or the name of the rejection that selects none (R48, R53): a window shorter than 6 bytes, a length
that is inconsistent with the type (never reached, R81), a byte 0 other than `0xF9`. The trailer's markers are the row's own
checks (R66 to R70). The trailer is the first three bytes after the `N` data words (R40); a window that has passed the length check
always has them, so the last alternative is never taken. -/
def decodeFrame (b : List Byte) : Except DecodeError Instr :=
  if b.length < Config.literals.minLen then .error .tooShort
  else
    match b with
    | b0 :: b1 :: user :: rest =>
      match dataWordCount (typeCode b1) b.length with
      | .error e => .error e
      | .ok n =>
        if hi b0 ≠ Config.literals.preamble then .error .badPreamble
        else if lo b0 ≠ Config.literals.sof then .error .badStartMarker
        else
          match rest.drop n with
          | crc :: tagEof :: post :: tail =>
            .ok (frameRow (typeCode b1) (reservedBits b1) user (rest.take n) (trailerOf crc tagEof post) tail)
          | _ => .error .tooShort
    | _ => .error .tooShort

/-- The port operation of a control word `C = {rst, DONE, in_valid, in_keep, in_last, out_ready}`, bit 5 = `rst` (R54), by the
dispatch of R85. Every word has one. -/
def decodeControl (c : BitVec 6) : Instr :=
  let rst := c.getLsbD 5
  let d := c.getLsbD 4
  let v := c.getLsbD 3
  let k := c.getLsbD 2
  let l := c.getLsbD 1
  let a := c.getLsbD 0
  if rst then .reset d v k l a
  else if d then
    if a then .portAck v k l else .hold v k l
  else if v then
    match k, l with
    | false, false => .null a
    | true, false => .append a
    | false, true => .close a
    | true, true => .appendClose a
  else .idle k l a

/-- What an instruction is written in: a frame row in the bytes of a window, a port operation in a control word. -/
inductive Code where
  | window (bytes : List Byte)
  | control (word : BitVec 6)
deriving DecidableEq, Repr

/-- The decoder of both families. -/
def decode : Code → Except DecodeError Instr
  | .window b => decodeFrame b
  | .control c => .ok (decodeControl c)

/-- The header bytes of a frame: `{PREAMBLE, SOF}`, `{code, rsv}`, user data (R56). -/
def encodeHeader (code : BitVec 3) (rsv : BitVec 5) (user : Byte) : List Byte :=
  [Config.literals.preamble ++ Config.literals.sof, code ++ rsv, user]

/-- The trailer bytes of a frame: crc, `{tag, EOF}`, `{POSTAMBLE, pad}` (R56). -/
def encodeTrailer (t : Trailer) : List Byte :=
  [t.crc, t.tag ++ t.eof, t.postamble ++ t.pad]

/-- The control word of six bits, most significant first (R54). -/
def controlBits (rst d v k l a : Bool) : BitVec 6 :=
  BitVec.ofBool rst ++ BitVec.ofBool d ++ BitVec.ofBool v ++ BitVec.ofBool k ++ BitVec.ofBool l ++ BitVec.ofBool a

/-- The encoder: the window of a frame row by R56 (for `PING` followed by its tail, R55), the control word of a port operation by
the patterns of R54. -/
def encode : Instr → Code
  | .ping rsv user t tail =>
    .window (encodeHeader Config.literals.typePing rsv user ++ encodeTrailer t ++ tail)
  | .data rsv user words t =>
    .window (encodeHeader Config.literals.typeData rsv user ++ words ++ encodeTrailer t)
  | .frameAck rsv user words t =>
    .window (encodeHeader Config.literals.typeAck rsv user ++ words ++ encodeTrailer t)
  | .nak rsv user words t =>
    .window (encodeHeader Config.literals.typeNak rsv user ++ words ++ encodeTrailer t)
  | .unknown raw rsv user words t =>
    .window (encodeHeader raw rsv user ++ words ++ encodeTrailer t)
  | .reset d v k l a => .control (controlBits true d v k l a)
  | .idle k l a => .control (controlBits false false false k l a)
  | .null a => .control (controlBits false false true false false a)
  | .append a => .control (controlBits false false true true false a)
  | .close a => .control (controlBits false false true false true a)
  | .appendClose a => .control (controlBits false false true true true a)
  | .hold v k l => .control (controlBits false true v k l false)
  | .portAck v k l => .control (controlBits false true v k l true)

/-- The frame constructor of R56 in its own arithmetic: `{code, rsv}` is `code * 32 + rsv`, `{tag, EOF}` is `tag * 16 + 6`,
`{POSTAMBLE, pad}` is `0xF0 + pad`. -/
def frameBytes (code : BitVec 3) (rsv : BitVec 5) (user : Byte) (words : List Byte) (crc : Byte) (tag pad : Nibble) : List Byte :=
  [0xF9#8, BitVec.ofNat 8 (code.toNat * 32 + rsv.toNat), user] ++ words ++
    [crc, BitVec.ofNat 8 (tag.toNat * 16 + 0x6), BitVec.ofNat 8 (0xF0 + pad.toNat)]

/-- The shortest window whose header word is `h = {B[0], B[1]}` (byte 0 in bits 15 to 8, R48) and whose other bytes are 0. -/
def headerWindow (h : Nat) : List Byte :=
  [BitVec.ofNat 8 (h / 256), BitVec.ofNat 8 h, 0#8, 0#8, 0#8, 0#8]

/-- The code of a table word: 16 bits are a header word `H`, of a frame row; 8 or 6 bits are a control word `C`, of a port operation. -/
def tableCode (nbits w : Nat) : Option Code :=
  if nbits = 16 then
    if w < 2 ^ 16 then some (.window (headerWindow w)) else none
  else if nbits = 8 ∨ nbits = 6 then
    if w < 2 ^ 6 then some (.control (BitVec.ofNat 6 w)) else none
  else none

/-- The instruction the decoder reads from a word of the opcode table, bits numbered as the table numbers them: for a frame row
the header word `H` followed by operand bytes of zeros, for a port operation the control word `C`. -/
def decodeTableWord (nbits w : Nat) : Option Instr :=
  match tableCode nbits w with
  | some c => (decode c).toOption
  | none => none

end Sys2Proof
end

