-- ==== Sys2Proof/Machine/State.lean ====
section
/-! DEFINITION. The state of the block as plain data (spec/10_state.md rule R13), the results a window can have, the record of the
output ports, the reasons a step can stop, and the state after reset (rule R26). -/

namespace Sys2Proof.Machine

/-- Why a step stops. The spec has no fault: both are accesses the spec says do not exist, and no state with `LEN <= MAXLEN` reaches
one (log 11). -/
inductive Fault where
  /-- Raised by `State.cell` for `W[i]` with `i >= MAXLEN`, a cell that does not exist (R14). Safe: the model stops. -/
  | noSuchCell (index : Nat)
  /-- Raised by `readByte` for `B[i]` with `i >= L`, which no rule evaluates (R32, spec/93 U11). Safe: the model stops. -/
  | readPastWindow (offset : Nat)
deriving DecidableEq, Repr

/-- Why an instruction has no meaning. -/
inductive Refusal where
  /-- Raised by an arm of `exec` for an instruction without a meaning; no arm does so. Safe: the model stops. -/
  | notModelled (mnemonic : String)
deriving DecidableEq, Repr

/-- The success output of the function layer, field by field as R10 lists it, over an arbitrary type of timing markers (D25). The tag
is delivered in 8 bits with its upper nibble zero (R45). -/
structure DecodedFrame (T : Type) where
  frameType : FrameType
  userData : Byte
  dataWords : List Byte
  crc : Byte
  frameTag : Byte
  startTime : T
  endTime : T
deriving DecidableEq, Repr

/-- The result of `decode`: `Ok(f)` or `Reject(e)` (R10). -/
inductive FrameResult (T : Type) where
  | ok (frame : DecodedFrame T)
  | reject (e : DecodeError)
deriving DecidableEq, Repr

/-- What the hardware layer presents for a closed window: the result of `decode`, or `Refuse(Overflow)` (R10, R23, R108). -/
inductive Presented where
  | result (r : FrameResult Nat)
  | overflow
deriving DecidableEq, Repr

/-- The output ports (R22). -/
structure Outputs where
  inReady : Bool
  outValid : Bool
  outOk : Bool
  outErr : BitVec 3
  outType : BitVec 3
  outTypeUnknown : Bool
  outUser : Byte
  outNwords : Nat
  outCrc : Byte
  outTag : Byte
  outTs : Nat
  outTe : Nat
  rdWord : Byte
deriving DecidableEq, Repr

/-- The window buffer's cells that something has written: (index, byte) pairs, indices strictly rising (`Memory.wf`). An unlisted
cell has not been written since power-up and reads as no value here (log 2). -/
abbrev Memory := List Host.Cell

/-- The state. `w`, `len`, `ovf`, `done`, `ts`, `te` are the six pieces of R13. The others are the model's own: the parameters of
R6 (log 1), the ports (R21, R22; log 4, log 6), the caller's scripted port values and the counter that picks the free ones
(log 4). -/
structure State where
  params : Params
  w : Memory
  len : Nat
  ovf : Bool
  done : Bool
  ts : Nat
  te : Nat
  ports : Inputs
  pending : List Inputs
  cycle : Nat
  seen : Outputs
deriving DecidableEq, Repr

/-- The output ports while no result is presented: every one 0 but `in_ready` (R22, R26). -/
def Outputs.collecting : Outputs where
  inReady := true
  outValid := false
  outOk := false
  outErr := 0#3
  outType := 0#3
  outTypeUnknown := false
  outUser := 0#8
  outNwords := 0
  outCrc := 0#8
  outTag := 0#8
  outTs := 0
  outTe := 0
  rdWord := 0#8

/-- The machine right after a RESET (R26): COLLECT, an empty window, no overflow, no cell written. DESIGN CHOICE: `TS`, `TE` at 0
(log 3), the parameters of the test vectors (log 1), no scripted inputs (log 4). -/
def State.reset : State where
  params := Config.vectorParams
  w := []
  len := 0
  ovf := false
  done := false
  ts := 0
  te := 0
  ports := Inputs.zero
  pending := []
  cycle := 0
  seen := Outputs.collecting

end Sys2Proof.Machine
end

