-- ==== Sys2Proof/Machine/Operands.lean ====
section
/-! DEFINITION. The operand forms: one byte of a window, the fields of a frame (spec/30_encoding.md rules R44 to R47), the window as the
operand of the frame rows, the indexed data word. -/

namespace Sys2Proof.Machine

/-- `B[i]`, defined only for `i < L` (R9, R32). -/
def readByte (b : List Byte) (i : Nat) : Except Fault Byte :=
  match b[i]? with
  | some v => .ok v
  | none => .error (.readPastWindow i)

/-- `B[a..a+n)`, the half-open slice (R9), byte by byte. -/
def readSlice (b : List Byte) (a : Nat) : Nat → Except Fault (List Byte)
  | 0 => .ok []
  | n + 1 => do
    let v ← readByte b a
    let vs ← readSlice b (a + 1) n
    return v :: vs

/-- The variant of a type code (R46). -/
def frameTypeOf (code : BitVec 3) : FrameType :=
  if code = Config.literals.typePing then .ping
  else if code = Config.literals.typeData then .data
  else if code = Config.literals.typeAck then .ack
  else if code = Config.literals.typeNak then .nak
  else .unknown code

/-- `code` of R47, the raw type code of a variant. -/
def typeCodeOf : FrameType → BitVec 3
  | .ping => Config.literals.typePing
  | .data => Config.literals.typeData
  | .ack => Config.literals.typeAck
  | .nak => Config.literals.typeNak
  | .unknown raw => raw

/-- The frame tag as it is delivered: `zext_8` of the nibble (R45). -/
def frameTagOf (tag : Nibble) : Byte := tag.setWidth 8

/-- The data word at `idx`, `0x00` at and past the last one (R94). -/
def dataWord (words : List Byte) (idx : Nat) : Byte := words.getD idx 0#8

end Sys2Proof.Machine
end

