-- ==== Sys2Proof/Machine/Flags.lean ====
section
/-! DEFINITION. Every flag and status code the block computes: the overflow condition (spec/10_state.md rule R16), the result flags and
the error code (rules R18, R22, spec/60_exceptions.md rule R101). -/

namespace Sys2Proof.Machine

/-- The buffer is full: a byte that arrives now is discarded and sets `OVF` (R16). -/
def State.full (s : State) : Bool := !decide (s.len < s.params.maxLen)

/-- The 3-bit number of a rejection (R101). -/
def errorCode : DecodeError → BitVec 3
  | .tooShort => 1#3
  | .negativeDataLength => 2#3
  | .badPreamble => 3#3
  | .badStartMarker => 4#3
  | .badEndMarker => 5#3
  | .badPostamble => 6#3

/-- `out_err` (R23): 0 when there is no result or it is `Ok`, 7 for the refusal (R101). -/
def outErrOf : Option Presented → BitVec 3
  | none => 0#3
  | some (.result (.ok _)) => 0#3
  | some (.result (.reject e)) => errorCode e
  | some .overflow => 7#3

/-- `out_type_unknown` is bit 2 of the type code (R47). -/
def typeUnknownFlag (code : BitVec 3) : Bool := code.getLsbD 2

end Sys2Proof.Machine
end

