-- ==== Sys2Proof/Machine/Ops.lean ====
section
/-! DEFINITION. The named operations: the window buffer, the input ports, the control word, and the two operations that play the part of
taking an exception and of returning from one: presenting a result (spec/60_exceptions.md rule R112) and dismissing it (rule
R114). -/

namespace Sys2Proof.Machine

/-- What a cell that is listed nowhere reads as: no value (log 2). -/
def Memory.unlisted : Option Byte := none

/-- The byte written last at an index, none if nothing has written it. -/
def Memory.read : Memory → Nat → Option Byte
  | [], _ => Memory.unlisted
  | (b, x) :: m, a => if a = b then some x else Memory.read m a

/-- Store a byte, keeping the indices strictly rising. -/
def Memory.write : Memory → Nat → Byte → Memory
  | [], a, v => [(a, v)]
  | (b, x) :: m, a, v =>
    if a < b then (a, v) :: (b, x) :: m
    else if a = b then (a, v) :: m
    else (b, x) :: Memory.write m a v

/-- The canonical form: indices strictly rising. -/
def Memory.wf : Memory → Bool
  | [] => true
  | [_] => true
  | (a, _) :: (b, y) :: m => decide (a < b) && Memory.wf ((b, y) :: m)

/-- Every listed index is below `n`. -/
def Memory.below (n : Nat) (m : Memory) : Bool := m.all fun c => decide (c.1 < n)

/-- The bits of cell `W[i]`: the byte written last, or the free byte it holds since power-up (log 2). -/
def State.cellBits (s : State) (i : Nat) : Byte :=
  match s.w.read i with
  | some v => v
  | none => Config.powerUpCell i

/-- Read cell `W[i]`, `0 <= i < MAXLEN` (R14). A cell past the buffer does not exist (log 11). -/
def State.cell (s : State) (i : Nat) : Except Fault Byte :=
  if i < s.params.maxLen then .ok (s.cellBits i) else .error (.noSuchCell i)

/-- `n` cells from index `i` on, in order. -/
def State.cells (s : State) (i : Nat) : Nat → Except Fault (List Byte)
  | 0 => .ok []
  | n + 1 => do
    let v ← s.cell i
    let vs ← s.cells (i + 1) n
    return v :: vs

/-- The window `W[0..LEN)` that `decode` sees (R23, R28). -/
def State.window (s : State) : Except Fault (List Byte) := s.cells 0 s.len

/-- `LW`, the least width with `2^LW > MAXLEN` (R6). -/
def lenWidth (p : Params) : Nat := Nat.log2 p.maxLen + 1

/-- The bits that the ports of open width carry: `TW` of a marker, `LW` of the index (R21; log 5). -/
def fitPorts (p : Params) (i : Inputs) : Inputs :=
  { i with inTs := i.inTs % 2 ^ p.tw, inTe := i.inTe % 2 ^ p.tw, rdIdx := i.rdIdx % 2 ^ lenWidth p }

/-- What the caller holds on the input ports in the cycle that begins now: the next scripted values, or free ones (R84; log 4). -/
def State.nextPorts (s : State) : Inputs :=
  match s.pending with
  | i :: _ => i
  | [] => Config.callerPorts s.cycle

/-- Begin a cycle: the caller's values stand on the input ports. -/
def State.takePorts (s : State) : State :=
  { s with ports := fitPorts s.params s.nextPorts, pending := s.pending.tail, cycle := s.cycle + 1 }

/-- The control word `C = {rst, DONE, in_valid, in_keep, in_last, out_ready}` of the cycle (R54). -/
def State.controlWord (s : State) : BitVec 6 :=
  controlBits s.ports.rst s.done s.ports.inValid s.ports.inKeep s.ports.inLast s.ports.outReady

/-- The output ports for a result (R23), with the word read port at index `rd` (R94). Anything but `Ok` shows its error code and
nothing else (R113). -/
def outputsOf (done : Bool) (res : Option Presented) (rd : Nat) : Outputs :=
  match res with
  | some (.result (.ok f)) =>
    { inReady := !done
      outValid := done
      outOk := true
      outErr := outErrOf res
      outType := typeCodeOf f.frameType
      outTypeUnknown := typeUnknownFlag (typeCodeOf f.frameType)
      outUser := f.userData
      outNwords := f.dataWords.length
      outCrc := f.crc
      outTag := f.frameTag
      outTs := f.startTime
      outTe := f.endTime
      rdWord := dataWord f.dataWords rd }
  | _ => { Outputs.collecting with inReady := !done, outValid := done, outErr := outErrOf res }

/-- `res` of R23 once `decode` has answered `r`: nothing in COLLECT, the refusal when the window overflowed (R108). -/
def State.resultShown (s : State) (r : FrameResult Nat) : Option Presented :=
  if s.done then
    if s.ovf then some .overflow else some (.result r)
  else none

/-- Presenting a result, the block's "trap entry" (R112): no transfer of control, nothing saved, no mode; the output ports show it for
the index the caller holds on `rd_idx` in this cycle (R23, R94). -/
def State.present (s : State) (r : FrameResult Nat) : State :=
  { s with seen := outputsOf s.done (s.resultShown r) s.ports.rdIdx }

/-- The output ports of a cycle in which `decode` is not evaluated: COLLECT, or HOLD of an overflowed window (R23). -/
def State.presentNoDecode (s : State) : State :=
  { s with seen := outputsOf s.done (if s.done then some .overflow else none) s.ports.rdIdx }

/-- Dismissing a result, the block's "trap return" (R114), and the same three writes of RESET (R86): nothing else is written. -/
def State.clearWindow (s : State) : State :=
  { s with done := false, len := 0, ovf := false }

/-- Accept the byte on `in_data`: `W[LEN] <- in_data; LEN <- LEN + 1`, or `OVF <- 1` when the buffer is full (R89). -/
def State.appendByte (s : State) : State :=
  if s.full then { s with ovf := true }
  else { s with w := s.w.write s.len s.ports.inData, len := s.len + 1 }

/-- Close the window: `TS <- in_ts; TE <- in_te; DONE <- 1` (R90). -/
def State.closeWindow (s : State) : State :=
  { s with ts := s.ports.inTs, te := s.ports.inTe, done := true }

/-- What every frame row computes once its row is selected: the two trailer markers in order, then the frame (R66 to R70). -/
def frameResult {T : Type} (ty : FrameType) (user : Byte) (words : List Byte) (t : Trailer) (ts te : T) : FrameResult T :=
  if t.eof ≠ Config.literals.eof then .reject .badEndMarker
  else if t.postamble ≠ Config.literals.postamble then .reject .badPostamble
  else .ok
    { frameType := ty
      userData := user
      dataWords := words
      crc := t.crc
      frameTag := frameTagOf t.tag
      startTime := ts
      endTime := te }

end Sys2Proof.Machine
end

