-- ==== Sys2Proof/Machine/Frame.lean ====
section
/-! DEFINITION. The meanings of the five frame rows (spec/40_frame_decode.md rules R66 to R70). Each computes the result of `decode` for a
window of its row, with the markers `TS` and `TE` (rule R23), and presents it. The reserved bits, the pad nibble and a Ping
window's tail are operands that no meaning reads (rules R49, R51, R82). -/

namespace Sys2Proof.Machine

/-- `PING` (R66): no data words, whatever the window's length. -/
def execPing (_rsv : BitVec 5) (user : Byte) (t : Trailer) (_tail : List Byte) (s : State) : Host.Outcome State Fault Refusal :=
  .next (s.present (frameResult .ping user [] t s.ts s.te))

/-- `DATA` (R67). -/
def execData (_rsv : BitVec 5) (user : Byte) (words : List Byte) (t : Trailer) (s : State) : Host.Outcome State Fault Refusal :=
  .next (s.present (frameResult .data user words t s.ts s.te))

/-- The frame `ACK` (R68): data words are neither required nor forbidden. -/
def execFrameAck (_rsv : BitVec 5) (user : Byte) (words : List Byte) (t : Trailer) (s : State) : Host.Outcome State Fault Refusal :=
  .next (s.present (frameResult .ack user words t s.ts s.te))

/-- `NAK` (R69). -/
def execNak (_rsv : BitVec 5) (user : Byte) (words : List Byte) (t : Trailer) (s : State) : Host.Outcome State Fault Refusal :=
  .next (s.present (frameResult .nak user words t s.ts s.te))

/-- `UNKNOWN` (R70): the raw type code is carried in the result. -/
def execUnknown (raw : BitVec 3) (_rsv : BitVec 5) (user : Byte) (words : List Byte) (t : Trailer) (s : State) :
    Host.Outcome State Fault Refusal :=
  .next (s.present (frameResult (.unknown raw) user words t s.ts s.te))

end Sys2Proof.Machine
end

