-- ==== Sys2Proof/Machine/Port.lean ====
section
/-! DEFINITION. The meanings of the eight port operations (spec/41_port_operations.md rules R86 to R93). Their data operands `in_data`,
`in_ts`, `in_te` stand on the input ports (`State.ports`); the don't-care bits of the control word are operands that no meaning
reads. -/

namespace Sys2Proof.Machine

/-- `RESET` (R86): `DONE <- 0; LEN <- 0; OVF <- 0`. -/
def execReset (_d _v _k _l _a : Bool) (s : State) : Host.Outcome State Fault Refusal := .next s.clearWindow

/-- `IDLE` (R87): no state changes. -/
def execIdle (_k _l _a : Bool) (s : State) : Host.Outcome State Fault Refusal := .next s

/-- `NULL` (R88): a beat that carries no byte and does not close the window; no state changes. -/
def execNull (_a : Bool) (s : State) : Host.Outcome State Fault Refusal := .next s

/-- `APPEND` (R89). -/
def execAppend (_a : Bool) (s : State) : Host.Outcome State Fault Refusal := .next s.appendByte

/-- `CLOSE` (R90). -/
def execClose (_a : Bool) (s : State) : Host.Outcome State Fault Refusal := .next s.closeWindow

/-- `APPEND_CLOSE` (R91): the effect of APPEND and of CLOSE in one edge. -/
def execAppendClose (_a : Bool) (s : State) : Host.Outcome State Fault Refusal := .next s.appendByte.closeWindow

/-- `HOLD` (R92): no state changes. -/
def execHold (_v _k _l : Bool) (s : State) : Host.Outcome State Fault Refusal := .next s

/-- The port operation `ACK` (R93): `DONE <- 0; LEN <- 0; OVF <- 0`. -/
def execPortAck (_v _k _l : Bool) (s : State) : Host.Outcome State Fault Refusal := .next s.clearWindow

end Sys2Proof.Machine
end

