-- ==== Sys2Proof/Machine/Dispatch.lean ====
section
/-! DEFINITION. `exec`: one arm per instruction, each one direct call of its meaning. -/

namespace Sys2Proof.Machine

def exec (i : Instr) (s : State) : Host.Outcome State Fault Refusal :=
  match i with
  | .ping rsv user trailer tail => Sys2Proof.Machine.execPing rsv user trailer tail s
  | .data rsv user words trailer => Sys2Proof.Machine.execData rsv user words trailer s
  | .frameAck rsv user words trailer => Sys2Proof.Machine.execFrameAck rsv user words trailer s
  | .nak rsv user words trailer => Sys2Proof.Machine.execNak rsv user words trailer s
  | .unknown raw rsv user words trailer => Sys2Proof.Machine.execUnknown raw rsv user words trailer s
  | .reset d v k l a => Sys2Proof.Machine.execReset d v k l a s
  | .idle k l a => Sys2Proof.Machine.execIdle k l a s
  | .null a => Sys2Proof.Machine.execNull a s
  | .append a => Sys2Proof.Machine.execAppend a s
  | .close a => Sys2Proof.Machine.execClose a s
  | .appendClose a => Sys2Proof.Machine.execAppendClose a s
  | .hold v k l => Sys2Proof.Machine.execHold v k l s
  | .portAck v k l => Sys2Proof.Machine.execPortAck v k l s

end Sys2Proof.Machine
end

