-- ==== Sys2Proof/Machine/Cycle.lean ====
section
/-! DEFINITION. One clock cycle: the output ports settle, then the port operation happens at the edge that ends the cycle (spec/41 rules
R84, R85; spec/95 section 5). -/

namespace Sys2Proof.Machine

/-- The output ports of the cycle (R23). While a window that did not overflow is presented, its frame row is decoded from `W[0..LEN)`
and executed; a window that selects no row is presented as the rejection the decoder names. -/
def settle (s : State) : Host.Outcome State Fault Refusal :=
  if s.done && !s.ovf then
    match s.window with
    | .error f => .fault f
    | .ok b =>
      match decodeFrame b with
      | .error e => .next (s.present (.reject e))
      | .ok i => exec i s
  else .next s.presentNoDecode

/-- The port operation at the edge (R85). -/
def clockEdge (s : State) : Host.Outcome State Fault Refusal := exec (decodeControl s.controlWord) s

/-- One cycle: inputs, outputs, edge. -/
def clockCycle (s : State) : Host.Outcome State Fault Refusal :=
  match settle s.takePorts with
  | .next t => clockEdge t
  | .fault f => .fault f
  | .refused r => .refused r

/-- Store a window in the buffer from cell `i` on. -/
def State.loadWindow (s : State) (i : Nat) : List Byte → State
  | [] => s
  | v :: vs => State.loadWindow { s with w := s.w.write i v } (i + 1) vs

/-- The window of a frame row as it stands after its closing beat: in the buffer, `LEN` its length, presented, not overflowed; the
caller holds every input at 0 in the coming cycle, so that the edge performs HOLD, which changes nothing. -/
def State.fetchFrame (s : State) (b : List Byte) : State :=
  { s.loadWindow 0 b with len := b.length, ovf := false, done := true, pending := Inputs.zero :: s.pending }

/-- The ports of a control word, with `DONE` as the word has it (R54); the data ports at 0. -/
def State.fetchControl (s : State) (c : BitVec 6) : State :=
  { s with
    done := c.getLsbD 4
    pending :=
      { Inputs.zero with
        rst := c.getLsbD 5
        inValid := c.getLsbD 3
        inKeep := c.getLsbD 2
        inLast := c.getLsbD 1
        outReady := c.getLsbD 0 } :: s.pending }

/-- An instruction's word stored where the next cycle fetches it. -/
def State.fetchCode (s : State) : Code → State
  | .window b => s.fetchFrame b
  | .control c => s.fetchControl c

end Sys2Proof.Machine
end

