-- ==== Sys2Proof/Machine/Step.lean ====
section
/-! DEFINITION. The step, and how an instruction's word is placed for it. -/

namespace Sys2Proof.Machine

/-- One step is one clock cycle (R84). -/
def step (s : State) : Host.Outcome State Fault Refusal := clockCycle s

/-- The state in which the next step runs the instruction of a table word: for a frame row its window is presented, for a port
operation its control word stands on the ports (log 7). -/
def State.withFetchWord (s : State) (nbits w : Nat) : State :=
  match tableCode nbits w with
  | some c => s.fetchCode c
  | none => s

end Sys2Proof.Machine
end

