-- ==== Sys2Proof/Machine/FrameDecoder.lean ====
section
/-! DEFINITION. `FrameDecoder.decode`, the one operation of the source, as spec/40_frame_decode.md rule R59 writes it, and the output
function of spec/10_state.md rule R23 that evaluates it over the window buffer. The step runs the frame rows one by one
(Machine/Frame.lean); that the two agree is stated in Certificates. -/

namespace Sys2Proof.Machine

/-- Step 4: the four structural markers in the order of R64; the first wrong one is named (R110). -/
def checkMarkers (b : List Byte) (n : Nat) : Except Fault (Option DecodeError) := do
  let first ← readByte b 0
  if hi first ≠ Config.literals.preamble then return some .badPreamble
  if lo first ≠ Config.literals.sof then return some .badStartMarker
  let tagEof ← readByte b (Config.literals.hdrLen + n + 1)
  if lo tagEof ≠ Config.literals.eof then return some .badEndMarker
  let post ← readByte b (Config.literals.hdrLen + n + 2)
  if hi post ≠ Config.literals.postamble then return some .badPostamble
  return none

/-- Step 5: the decoded frame, its fields from the offsets of R44, the markers passed through (R65). -/
def assembleFrame {T : Type} (b : List Byte) (code : BitVec 3) (n : Nat) (ts te : T) : Except Fault (DecodedFrame T) := do
  let user ← readByte b 2
  let words ← readSlice b Config.literals.hdrLen n
  let crc ← readByte b (Config.literals.hdrLen + n)
  let tagEof ← readByte b (Config.literals.hdrLen + n + 1)
  return {
    frameType := frameTypeOf code
    userData := user
    dataWords := words
    crc := crc
    frameTag := frameTagOf (hi tagEof)
    startTime := ts
    endTime := te }

/-- The whole algorithm of R59, over a window of any length and markers of any type (D25). A read past the window is a fault (log 11);
no window causes one (R32). -/
def decodeWindow {T : Type} (b : List Byte) (ts te : T) : Except Fault (FrameResult T) :=
  if b.length < Config.literals.minLen then .ok (.reject .tooShort)
  else do
    let b1 ← readByte b 1
    match dataWordCount (typeCode b1) b.length with
    | .error e => return .reject e
    | .ok n =>
      match ← checkMarkers b n with
      | some e => return .reject e
      | none => return .ok (← assembleFrame b (typeCode b1) n ts te)

/-- `res` of R23, from the state alone. -/
def State.result (s : State) : Except Fault (Option Presented) :=
  if !s.done then .ok none
  else if s.ovf then .ok (some .overflow)
  else do
    let b ← s.window
    return some (.result (← decodeWindow b s.ts s.te))

/-- The output function `out : State × rd_idx → Outputs` of R84: the ports of R23 and the word read port of R94. -/
def State.outputs (s : State) (rd : Nat) : Except Fault Outputs := do
  return outputsOf s.done (← s.result) rd

end Sys2Proof.Machine
end

