-- ==== Sys2Proof/Safety.lean ====
section
/-! DEFINITION. What counts as a good state and a safe step, in the terms of spec/10_state.md rule R27, and the words in which the
statements speak of scripts of inputs (spec/41_port_operations.md rule R95). -/

namespace Sys2Proof.Machine

/-- Every cell below `n` has been written. -/
def State.writtenBelow (s : State) (n : Nat) : Prop := ∀ i, i < n → (s.w.read i).isSome = true

/-- The invariant of the block: `LEN` in range (R27 item 1), `OVF` only on a full buffer (item 2), the window's cells written (of
item 3; which bytes they hold is a matter of the cycles since the last RESET or ACK, see `bytesDelivered`), the markers within their width (R19), the buffer in canonical form and inside its index range (R14), parameters that R6
admits. -/
structure State.Inv (s : State) : Prop where
  params : s.params.valid = true
  memWf : s.w.wf = true
  memBelow : s.w.below s.params.maxLen = true
  lenLe : s.len ≤ s.params.maxLen
  ovfFull : s.ovf = true → s.len = s.params.maxLen
  written : s.writtenBelow s.len
  tsFits : s.ts < 2 ^ s.params.tw
  teFits : s.te < 2 ^ s.params.tw

/-- A step that neither faults nor refuses. -/
def State.SafeStep (s : State) : Prop := ∃ t, step s = .next t

/-- The block is in COLLECT with an empty window: the state that RESET and ACK leave (R95). -/
def State.Empty (s : State) : Prop := s.done = false ∧ s.len = 0 ∧ s.ovf = false

/-- The byte that a cycle delivers in COLLECT, if its beat carries one (R21). -/
def byteOffered (i : Inputs) : List Byte := if i.inValid && i.inKeep then [i.inData] else []

/-- A cycle that is no RESET and closes no window: IDLE, NULL or APPEND when the block is in COLLECT (R85). -/
def keepsOpen (i : Inputs) : Bool := !i.rst && !(i.inValid && i.inLast)

/-- A closing beat (R12): CLOSE or APPEND_CLOSE when the block is in COLLECT. -/
def closesWindow (i : Inputs) : Bool := !i.rst && i.inValid && i.inLast

/-- A cycle that is neither RESET nor ACK: HOLD while a result is presented (R85). -/
def holdsResult (i : Inputs) : Bool := !i.rst && !i.outReady

/-- The bytes that a script of cycles delivers, in order (R95). -/
def bytesDelivered (script : List Inputs) : List Byte := script.flatMap byteOffered

/-- The script of one window transaction (R95): cycles that keep the window open, one closing beat, then cycles of HOLD. -/
structure Transaction where
  before : List Inputs
  closing : Inputs
  after : List Inputs
deriving DecidableEq, Repr

/-- The cycles of a transaction in order. -/
def Transaction.script (x : Transaction) : List Inputs := x.before ++ x.closing :: x.after

/-- The window a transaction delivers. -/
def Transaction.bytes (x : Transaction) : List Byte := bytesDelivered (x.before ++ [x.closing])

/-- The cycles are what R95 asks, and the closing beat's markers are `TW` bits wide. -/
def Transaction.wf (x : Transaction) (p : Params) : Bool :=
  x.before.all keepsOpen && closesWindow x.closing && x.after.all holdsResult
    && decide (x.closing.inTs < 2 ^ p.tw) && decide (x.closing.inTe < 2 ^ p.tw)

/-- The output ports of the refusal: `out_err = 7` and every field 0 (R108). -/
def Outputs.overflow : Outputs :=
  { Outputs.collecting with inReady := false, outValid := true, outErr := 7#3 }

/-- The output ports of a rejection: its code and every field 0 (R113). -/
def Outputs.rejected (code : BitVec 3) : Outputs :=
  { Outputs.collecting with inReady := false, outValid := true, outErr := code }

/-- `b` with bit `k` of the byte at offset `i` flipped. -/
def flipBit (b : List Byte) (i k : Nat) : List Byte := b.modify i (· ^^^ (1#8 <<< k))

/-- The spec's own six pieces of state (R13), without the model's bookkeeping. -/
def State.core (s : State) : Memory × Nat × Bool × Bool × Nat × Nat := (s.w, s.len, s.ovf, s.done, s.ts, s.te)

end Sys2Proof.Machine
end

