-- ==== Sys2Proof/Certificates/Slice0/Obligations.lean ====
section
/-! DEFINITION. The statements for the provers. R<n> are the rules of spec/; "log <n>" is notes/assumptions/<n>.md. `State.ports`,
`State.pending` and `State.seen` are the model's own record of what stands on the ports (log 4, log 6). -/

open Sys2Proof Sys2Proof.Machine

/-! ### Encodings -/

/-- Six words written out bit by bit from R41, R42 and R54 decode to the instructions they stand for. A sanity statement. -/
def Obligations.WrittenOutWordsDecode : Prop :=
  decode (.window [0b11111001#8, 0b00010101#8, 0x42#8, 0x7A#8, 0b00010110#8, 0b11110011#8, 0xAA#8])
      = .ok (.ping 0b10101#5 0x42#8 ⟨0x7A#8, 0b0001#4, 0b0110#4, 0b1111#4, 0b0011#4⟩ [0xAA#8]) ∧
    decode (.window [0b11111001#8, 0b00100000#8, 0x10#8, 0xDE#8, 0xAD#8, 0x55#8, 0b10100110#8, 0b11110000#8])
      = .ok (.data 0#5 0x10#8 [0xDE#8, 0xAD#8] ⟨0x55#8, 0b1010#4, 0b0110#4, 0b1111#4, 0b0000#4⟩) ∧
    decode (.window [0b11111001#8, 0b10111111#8, 0x42#8, 0x7A#8, 0b00010110#8, 0b11110000#8])
      = .ok (.unknown 0b101#3 0b11111#5 0x42#8 [] ⟨0x7A#8, 0b0001#4, 0b0110#4, 0b1111#4, 0b0000#4⟩) ∧
    decode (.control 0b001101#6) = .ok (.append true) ∧
    decode (.control 0b011100#6) = .ok (.hold true true false) ∧
    decode (.control 0b101101#6) = .ok (.reset false true true false true)

/-- Decoding an encoded instruction gives it back, every operand at every value: all thirteen rows; `UNKNOWN` with a raw code 4 to 7
(R46: the others do not exist); the marker nibbles at any value, well formed or not, since the decoder leaves the trailer's
markers to the row (log 8, the model's division of the checks). -/
def Obligations.DecodeAfterEncode : Prop :=
  ∀ i : Instr, (∀ raw rsv user words t, i = .unknown raw rsv user words t → 4 ≤ raw.toNat) → decode (encode i) = .ok i

/-- No two codes decode to one instruction: the encoding of what a code decodes to is that code, so no bit of it is dropped. -/
def Obligations.EncodeAfterDecode : Prop :=
  ∀ (c : Code) (i : Instr), decode c = .ok i → encode i = c

/-- The frame rows with right markers encode as the frame constructor of R56 (a Ping followed by its tail, R55), whose length is
`6 + len(words)`. -/
def Obligations.FrameRowsEncodeAsTheConstructor : Prop :=
  ∀ (rsv : BitVec 5) (user : Byte) (words : List Byte) (crc : Byte) (tag pad : Nibble),
    let t : Trailer := { crc := crc, tag := tag, eof := 0x6#4, postamble := 0xF#4, pad := pad }
    (∀ tail, encode (.ping rsv user t tail) = .window (frameBytes 0#3 rsv user [] crc tag pad ++ tail)) ∧
    encode (.data rsv user words t) = .window (frameBytes 1#3 rsv user words crc tag pad) ∧
    encode (.frameAck rsv user words t) = .window (frameBytes 2#3 rsv user words crc tag pad) ∧
    encode (.nak rsv user words t) = .window (frameBytes 3#3 rsv user words crc tag pad) ∧
    (∀ raw, encode (.unknown raw rsv user words t) = .window (frameBytes raw rsv user words crc tag pad)) ∧
    ∀ code, (frameBytes code rsv user words crc tag pad).length = 6 + words.length

/-- The match and mask of each control row of R54 select exactly the port operation of that row, for all 64 control words. -/
def Obligations.ControlWordSelectsItsRow : Prop :=
  ∀ c : BitVec 6,
    (c &&& 0x20#6 = 0x20#6 ↔ ∃ d v k l a, decodeControl c = .reset d v k l a) ∧
    (c &&& 0x38#6 = 0x00#6 ↔ ∃ k l a, decodeControl c = .idle k l a) ∧
    (c &&& 0x3E#6 = 0x08#6 ↔ ∃ a, decodeControl c = .null a) ∧
    (c &&& 0x3E#6 = 0x0C#6 ↔ ∃ a, decodeControl c = .append a) ∧
    (c &&& 0x3E#6 = 0x0A#6 ↔ ∃ a, decodeControl c = .close a) ∧
    (c &&& 0x3E#6 = 0x0E#6 ↔ ∃ a, decodeControl c = .appendClose a) ∧
    (c &&& 0x31#6 = 0x10#6 ↔ ∃ v k l, decodeControl c = .hold v k l) ∧
    (c &&& 0x31#6 = 0x11#6 ↔ ∃ v k l, decodeControl c = .portAck v k l)

/-- The dispatch of R85 on the ports and `DONE`, with the don't-care bits in their places. -/
def Obligations.PortBitsSelectThePortOperation : Prop :=
  ∀ s : State,
    let p := s.ports
    decodeControl s.controlWord =
      if p.rst = true then .reset s.done p.inValid p.inKeep p.inLast p.outReady
      else if s.done = false then
        if p.inValid = false then .idle p.inKeep p.inLast p.outReady
        else if p.inKeep = false ∧ p.inLast = false then .null p.outReady
        else if p.inKeep = true ∧ p.inLast = false then .append p.outReady
        else if p.inKeep = false ∧ p.inLast = true then .close p.outReady
        else .appendClose p.outReady
      else if p.outReady = false then .hold p.inValid p.inKeep p.inLast
      else .portAck p.inValid p.inKeep p.inLast

/-- The match and mask of each frame row of R48 on the header word `H = {B[0], B[1]}` select exactly that row of the model's decoder, for
every window of at least 6 bytes; another byte 0 than `0xF9` selects none and is rejected. That a header match is also SUFFICIENT
here is the model's own division of the checks (log 8, DEDUCED): R48 calls it necessary, not sufficient, for a window to
decode as the row, and in the model the row's meaning checks the two trailer markers and answers their rejection. -/
def Obligations.HeaderWordSelectsTheFrameRow : Prop :=
  ∀ (b0 b1 : Byte) (rest : List Byte), 4 ≤ rest.length →
    let h := b0.toNat * 256 + b1.toNat
    let b := b0 :: b1 :: rest
    (h &&& 0xFFE0 = 0xF900 ↔ ∃ rsv user t tail, decodeFrame b = .ok (.ping rsv user t tail)) ∧
    (h &&& 0xFFE0 = 0xF920 ↔ ∃ rsv user words t, decodeFrame b = .ok (.data rsv user words t)) ∧
    (h &&& 0xFFE0 = 0xF940 ↔ ∃ rsv user words t, decodeFrame b = .ok (.frameAck rsv user words t)) ∧
    (h &&& 0xFFE0 = 0xF960 ↔ ∃ rsv user words t, decodeFrame b = .ok (.nak rsv user words t)) ∧
    (h &&& 0xFF80 = 0xF980 ↔ ∃ raw rsv user words t, decodeFrame b = .ok (.unknown raw rsv user words t)) ∧
    (h / 256 ≠ 0xF9 ↔ decodeFrame b = .error .badPreamble ∨ decodeFrame b = .error .badStartMarker)

/-- Codes and variants of `FrameType` are in bijection (R46, R47), with the values of R46's table. -/
def Obligations.FrameTypeCodesAreABijection : Prop :=
  (∀ c : BitVec 3, (frameTypeOf c).legal = true ∧ typeCodeOf (frameTypeOf c) = c) ∧
  (∀ t : FrameType, t.legal = true → frameTypeOf (typeCodeOf t) = t) ∧
  frameTypeOf 0b000#3 = .ping ∧ frameTypeOf 0b001#3 = .data ∧ frameTypeOf 0b010#3 = .ack ∧ frameTypeOf 0b011#3 = .nak ∧
  ∀ c : BitVec 3, 4 ≤ c.toNat → frameTypeOf c = .unknown c ∧ typeUnknownFlag c = true

/-! ### `FrameDecoder.decode` -/

/-- `decode` answers one result for every window and every pair of markers; no byte at or past the window's end is read (a read there
would be the fault `readPastWindow`, log 11). -/
def Obligations.DecodeReadsOnlyInsideTheWindow : Prop :=
  ∀ (T : Type) (b : List Byte) (ts te : T), ∃ r, decodeWindow b ts te = .ok r

/-- R74: a constructed frame decodes to the fields it was made from. The hypothesis that a Ping has no words is needed: with words, an
accepted one has the first of them as its crc. -/
def Obligations.RoundTripLaw : Prop :=
  ∀ (T : Type) (code : BitVec 3) (rsv : BitVec 5) (user : Byte) (words : List Byte) (crc : Byte) (tag pad : Nibble) (ts te : T),
    ((code = 0#3 → words = []) →
      decodeWindow (frameBytes code rsv user words crc tag pad) ts te =
        .ok (.ok
          { frameType := frameTypeOf code
            userData := user
            dataWords := words
            crc := crc
            frameTag := tag.setWidth 8
            startTime := ts
            endTime := te })) ∧
    (∀ f, code = 0#3 → words ≠ [] → decodeWindow (frameBytes code rsv user words crc tag pad) ts te = .ok (.ok f) →
      f.dataWords = [] ∧ words.head? = some f.crc)

/-- R75. -/
def Obligations.LengthDerivationLaw : Prop :=
  ∀ (T : Type) (b : List Byte) (ts te : T) (f : DecodedFrame T) (b1 : Byte),
    decodeWindow b ts te = .ok (.ok f) → b[1]? = some b1 →
      (typeCode b1 ≠ 0#3 → 6 ≤ b.length ∧ f.dataWords.length = b.length - 6) ∧ (typeCode b1 = 0#3 → f.dataWords = [])

/-- R76. -/
def Obligations.MinimumLengthBoundary : Prop :=
  ∀ (T : Type) (ts te : T),
    (∀ b : List Byte, b.length < 6 ↔ decodeWindow b ts te = .ok (.reject .tooShort)) ∧
    ∀ (rsv : BitVec 5) (user crc : Byte) (tag pad : Nibble),
      ∃ f, decodeWindow [0xF9#8, 0b000#3 ++ rsv, user, crc, tag ++ 0x6#4, 0xF#4 ++ pad] ts te = .ok (.ok f)

/-- R77: one flipped bit of a marker of an accepted window, and what is reported; a flipped reserved bit changes nothing. `N` is the
number of data words of the accepted frame. -/
def Obligations.MarkerSensitivity : Prop :=
  ∀ (T : Type) (b : List Byte) (ts te : T) (f : DecodedFrame T) (k : Nat), decodeWindow b ts te = .ok (.ok f) →
    let n := f.dataWords.length
    (4 ≤ k → k < 8 → decodeWindow (flipBit b 0 k) ts te = .ok (.reject .badPreamble)) ∧
    (k < 4 → decodeWindow (flipBit b 0 k) ts te = .ok (.reject .badStartMarker)) ∧
    (k < 4 → decodeWindow (flipBit b (3 + n + 1) k) ts te = .ok (.reject .badEndMarker)) ∧
    (4 ≤ k → k < 8 → decodeWindow (flipBit b (3 + n + 2) k) ts te = .ok (.reject .badPostamble)) ∧
    (k < 5 → decodeWindow (flipBit b 1 k) ts te = .ok (.ok f))

/-- R78: the reserved bits, the low nibble of the postamble byte, and for type code 0 everything from offset 6 on. -/
def Obligations.IgnoredBitsDoNotMatter : Prop :=
  ∀ (T : Type) (b : List Byte) (ts te : T) (b1 : Byte), b[1]? = some b1 →
    (∀ b1', typeCode b1' = typeCode b1 → decodeWindow (b.set 1 b1') ts te = decodeWindow b ts te) ∧
    (∀ n p p', dataWordCount (typeCode b1) b.length = .ok n → b[3 + n + 2]? = some p → hi p' = hi p →
      decodeWindow (b.set (3 + n + 2) p') ts te = decodeWindow b ts te) ∧
    (∀ b' : List Byte, typeCode b1 = 0#3 → 6 ≤ b.length → 6 ≤ b'.length → b'.take 6 = b.take 6 →
      decodeWindow b' ts te = decodeWindow b ts te)

/-- R79: replacing a non-zero type code by another changes the result only in its frame type; a structurally valid frame with type
code `0b101` decodes as `Unknown(0b101)`. -/
def Obligations.UnknownTypePassThrough : Prop :=
  ∀ (T : Type) (b : List Byte) (ts te : T) (b1 : Byte), b[1]? = some b1 → typeCode b1 ≠ 0#3 →
    (∀ code : BitVec 3, code ≠ 0#3 →
      (∀ e, decodeWindow b ts te = .ok (.reject e) →
        decodeWindow (b.set 1 (code ++ reservedBits b1)) ts te = .ok (.reject e)) ∧
      (∀ f, decodeWindow b ts te = .ok (.ok f) →
        decodeWindow (b.set 1 (code ++ reservedBits b1)) ts te = .ok (.ok { f with frameType := frameTypeOf code }))) ∧
    (∀ tagEof post, typeCode b1 = 0b101#3 → 6 ≤ b.length → b[0]? = some 0xF9#8 → b[b.length - 2]? = some tagEof →
      lo tagEof = 0x6#4 → b[b.length - 1]? = some post → hi post = 0xF#4 →
        ∃ f, decodeWindow b ts te = .ok (.ok f) ∧ f.frameType = .unknown 0b101#3)

/-- R80: changing the user data byte, a data word, the crc byte or the tag nibble of an accepted window changes the corresponding field
and nothing else. -/
def Obligations.OpaqueFieldsAreCopied : Prop :=
  ∀ (T : Type) (b : List Byte) (ts te : T) (f : DecodedFrame T), decodeWindow b ts te = .ok (.ok f) →
    let n := f.dataWords.length
    (∀ v, decodeWindow (b.set 2 v) ts te = .ok (.ok { f with userData := v })) ∧
    (∀ k v, k < n → decodeWindow (b.set (3 + k) v) ts te = .ok (.ok { f with dataWords := f.dataWords.set k v })) ∧
    (∀ v, decodeWindow (b.set (3 + n) v) ts te = .ok (.ok { f with crc := v })) ∧
    (∀ tag : Nibble,
      decodeWindow (b.set (3 + n + 1) (tag ++ 0x6#4)) ts te = .ok (.ok { f with frameTag := tag.setWidth 8 }))

/-- R81. -/
def Obligations.NegativeDataLengthIsUnreachable : Prop :=
  ¬ ∃ (T : Type) (b : List Byte) (ts te : T), decodeWindow b ts te = .ok (.reject .negativeDataLength)

/-- R82. -/
def Obligations.PingPrefixLaw : Prop :=
  ∀ (T : Type) (b : List Byte) (ts te : T) (b1 : Byte), b[1]? = some b1 → typeCode b1 = 0#3 → 6 ≤ b.length →
    decodeWindow b ts te = decodeWindow (b.take 6) ts te

/-- R83: the markers are passed through, and the verdict does not depend on them (nor on their type). -/
def Obligations.TimingMarkerPassThrough : Prop :=
  ∀ (T U : Type) (b : List Byte) (ts te : T) (ts' te' : U),
    (∀ f, decodeWindow b ts te = .ok (.ok f) → f.startTime = ts ∧ f.endTime = te) ∧
    ((∃ f, decodeWindow b ts te = .ok (.ok f)) ↔ ∃ f, decodeWindow b ts' te' = .ok (.ok f)) ∧
    (∀ e, decodeWindow b ts te = .ok (.reject e) ↔ decodeWindow b ts' te' = .ok (.reject e))

/-- R102, R104 to R107 and R111: the cause of each rejection, in terms of the bytes at the offsets those rules name; windows of all
zeros and of all ones. -/
def Obligations.EachRejectionHasItsCause : Prop :=
  ∀ (T : Type) (ts te : T),
    (∀ b : List Byte, decodeWindow b ts te = .ok (.reject .tooShort) ↔ b.length < 6) ∧
    (∀ (b : List Byte) (b0 b1 tagEof post : Byte), 6 ≤ b.length → b[0]? = some b0 → b[1]? = some b1 →
      let n := if typeCode b1 = 0#3 then 0 else b.length - 6
      b[3 + n + 1]? = some tagEof → b[3 + n + 2]? = some post →
        (decodeWindow b ts te = .ok (.reject .badPreamble) ↔ hi b0 ≠ 0xF#4) ∧
        (decodeWindow b ts te = .ok (.reject .badStartMarker) ↔ hi b0 = 0xF#4 ∧ lo b0 ≠ 0x9#4) ∧
        (decodeWindow b ts te = .ok (.reject .badEndMarker) ↔ b0 = 0xF9#8 ∧ lo tagEof ≠ 0x6#4) ∧
        (decodeWindow b ts te = .ok (.reject .badPostamble) ↔ b0 = 0xF9#8 ∧ lo tagEof = 0x6#4 ∧ hi post ≠ 0xF#4)) ∧
    (∀ n, 6 ≤ n → decodeWindow (List.replicate n 0x00#8) ts te = .ok (.reject .badPreamble)) ∧
    (∀ n, 6 ≤ n → decodeWindow (List.replicate n 0xFF#8) ts te = .ok (.reject .badStartMarker))

/-- The whole of R59 in closed form over the window's bytes as numbers: which result every window of every length has. -/
def Obligations.DecodeInClosedForm : Prop :=
  ∀ (T : Type) (b : List Byte) (ts te : T),
    let byteAt (i : Nat) : Byte := b.getD i 0#8
    let code := (byteAt 1).toNat / 32
    let n := if code = 0 then 0 else b.length - 6
    decodeWindow b ts te = .ok
      (if b.length < 6 then .reject .tooShort
       else if (byteAt 0).toNat / 16 ≠ 15 then .reject .badPreamble
       else if (byteAt 0).toNat % 16 ≠ 9 then .reject .badStartMarker
       else if (byteAt (n + 4)).toNat % 16 ≠ 6 then .reject .badEndMarker
       else if (byteAt (n + 5)).toNat / 16 ≠ 15 then .reject .badPostamble
       else .ok
        { frameType := frameTypeOf (BitVec.ofNat 3 code)
          userData := byteAt 2
          dataWords := (b.drop 3).take n
          crc := byteAt (n + 3)
          frameTag := BitVec.ofNat 8 ((byteAt (n + 4)).toNat / 16)
          startTime := ts
          endTime := te })

/-- Row by row is as a whole: decoding a window's row and executing it presents what `decode` of R59 answers, for every window and
every state that presents one; a window that selects no row is the rejection that `decode` answers. Which of the checks select
the row and which the row makes itself is the model's division (log 8); the result is R59's. -/
def Obligations.FrameRowsComputeDecode : Prop :=
  ∀ (b : List Byte) (s : State), s.done = true → s.ovf = false →
    (∀ i, decodeFrame b = .ok i → ∃ r, decodeWindow b s.ts s.te = .ok r ∧
      exec i s = .next { s with seen := outputsOf true (some (.result r)) s.ports.rdIdx }) ∧
    (∀ e, decodeFrame b = .error e → decodeWindow b s.ts s.te = .ok (.reject e))

/-- R45: the frame tag is the high nibble of the tag byte, delivered in 8 bits with the upper four 0. -/
def Obligations.FrameTagUpperNibbleIsZero : Prop :=
  ∀ (T : Type) (b : List Byte) (ts te : T) (f : DecodedFrame T) (tagEof : Byte), decodeWindow b ts te = .ok (.ok f) →
    b[3 + f.dataWords.length + 1]? = some tagEof → f.frameTag = 0b0000#4 ++ hi tagEof ∧ f.frameTag.toNat < 16

/-- R63: the hardware form of the length subtraction. In `LW + 1` bits its top bit says exactly that `LEN < 6`; when it is 0 the low
`LW` bits are the number of data words; computed in `LW` bits without the check, a length of 5 would give `2^LW - 1`. -/
def Obligations.LengthSubtractionDoesNotWrap : Prop :=
  ∀ (p : Params) (code : BitVec 3) (len : Nat), p.valid = true → len ≤ p.maxLen → code ≠ 0#3 →
    let lw := lenWidth p
    let d : BitVec (lw + 1) := (BitVec.ofNat lw len).setWidth (lw + 1) - 6
    (d.msb = true ↔ len < 6) ∧
    (d.msb = false → dataWordCount code len = .ok (d.setWidth lw).toNat) ∧
    (d.msb = true → dataWordCount code len = .error .negativeDataLength) ∧
    (BitVec.ofNat lw 5 - 6).toNat = 2 ^ lw - 1

/-- `LW` is the least width whose range holds `MAXLEN` (R6). -/
def Obligations.LenWidthIsLeast : Prop :=
  ∀ p : Params, p.valid = true → p.maxLen < 2 ^ lenWidth p ∧ ∀ k, p.maxLen < 2 ^ k → lenWidth p ≤ k

/-! ### What each instruction does -/

/-- `PING` completes in every state that presents a window (R66): the whole next state. With right markers the frame's fields, no data
words; else the rejection of the first wrong trailer marker. Nothing but the record of the output ports changes. -/
def Obligations.PingPresentsItsFrame : Prop :=
  ∀ (rsv : BitVec 5) (user : Byte) (t : Trailer) (tail : List Byte) (s : State), s.done = true → s.ovf = false →
    (t.eof = 0x6#4 → t.postamble = 0xF#4 →
      exec (.ping rsv user t tail) s = .next
        { s with
          seen :=
            { inReady := false, outValid := true, outOk := true, outErr := 0#3, outType := 0b000#3, outTypeUnknown := false,
              outUser := user, outNwords := 0, outCrc := t.crc, outTag := t.tag.setWidth 8, outTs := s.ts, outTe := s.te,
              rdWord := 0#8 } }) ∧
    (t.eof ≠ 0x6#4 → exec (.ping rsv user t tail) s = .next { s with seen := Outputs.rejected 5#3 }) ∧
    (t.eof = 0x6#4 → t.postamble ≠ 0xF#4 → exec (.ping rsv user t tail) s = .next { s with seen := Outputs.rejected 6#3 })

/-- `DATA`, the frame `ACK`, `NAK` and `UNKNOWN` complete in every state that presents a window (R67 to R70): the whole next state, as
for `PING` but with the row's type code, the data words, and the word that the caller's index selects. -/
def Obligations.FormatVRowsPresentTheirFrames : Prop :=
  ∀ (raw : BitVec 3) (rsv : BitVec 5) (user : Byte) (words : List Byte) (t : Trailer) (s : State),
    s.done = true → s.ovf = false → 4 ≤ raw.toNat →
    let shown (code : BitVec 3) (unknown : Bool) : Outputs :=
      { inReady := false, outValid := true, outOk := true, outErr := 0#3, outType := code, outTypeUnknown := unknown,
        outUser := user, outNwords := words.length, outCrc := t.crc, outTag := t.tag.setWidth 8, outTs := s.ts, outTe := s.te,
        rdWord := if s.ports.rdIdx < words.length then words.getD s.ports.rdIdx 0#8 else 0#8 }
    (t.eof = 0x6#4 → t.postamble = 0xF#4 →
      exec (.data rsv user words t) s = .next { s with seen := shown 0b001#3 false } ∧
      exec (.frameAck rsv user words t) s = .next { s with seen := shown 0b010#3 false } ∧
      exec (.nak rsv user words t) s = .next { s with seen := shown 0b011#3 false } ∧
      exec (.unknown raw rsv user words t) s = .next { s with seen := shown raw true }) ∧
    ∀ i ∈ [Instr.data rsv user words t, .frameAck rsv user words t, .nak rsv user words t, .unknown raw rsv user words t],
      (t.eof ≠ 0x6#4 → exec i s = .next { s with seen := Outputs.rejected 5#3 }) ∧
      (t.eof = 0x6#4 → t.postamble ≠ 0xF#4 → exec i s = .next { s with seen := Outputs.rejected 6#3 })

/-- A frame row executed where R23 evaluates no `decode` shows no field: nothing in COLLECT, the refusal for an overflowed window. It
changes nothing but the record of the output ports there either. -/
def Obligations.FrameRowsShowNothingOutsideAResult : Prop :=
  ∀ (raw : BitVec 3) (rsv : BitVec 5) (user : Byte) (words tail : List Byte) (t : Trailer) (s : State),
    ∀ i ∈ [Instr.ping rsv user t tail, .data rsv user words t, .frameAck rsv user words t, .nak rsv user words t,
        .unknown raw rsv user words t],
      (s.done = false → exec i s = .next { s with seen := Outputs.collecting }) ∧
      (s.done = true → s.ovf = true → exec i s = .next { s with seen := Outputs.overflow })

/-- R26: what RESET leaves, from every state. `DONE`, `LEN`, `OVF` are 0, nothing else is written, and every output but `in_ready` is 0;
the model's state after reset has the same values. -/
def Obligations.ResetLeavesCollect : Prop :=
  (∀ (d v k l a : Bool) (s : State),
    exec (.reset d v k l a) s = .next { s with done := false, len := 0, ovf := false } ∧
    ∀ rd, State.outputs { s with done := false, len := 0, ovf := false } rd = .ok Outputs.collecting) ∧
  State.reset.done = false ∧ State.reset.len = 0 ∧ State.reset.ovf = false ∧
    ∀ rd, State.reset.outputs rd = .ok Outputs.collecting

/-- `IDLE`, `NULL` and `HOLD` complete in every state and change nothing (R87, R88, R92). -/
def Obligations.IdleNullHoldChangeNothing : Prop :=
  ∀ (v k l a : Bool) (s : State),
    exec (.idle k l a) s = .next s ∧ exec (.null a) s = .next s ∧ exec (.hold v k l) s = .next s

/-- `APPEND` completes in every state (R89): below `MAXLEN` it stores the byte on `in_data` in cell `LEN` and counts it, at `MAXLEN` it
sets `OVF` and stores nothing; nothing else changes. -/
def Obligations.AppendStoresOrOverflows : Prop :=
  ∀ (a : Bool) (s : State),
    (s.len < s.params.maxLen →
      exec (.append a) s = .next { s with w := s.w.write s.len s.ports.inData, len := s.len + 1 }) ∧
    (s.params.maxLen ≤ s.len → exec (.append a) s = .next { s with ovf := true })

/-- `CLOSE` completes in every state (R90): the two markers on the ports are latched and `DONE` is set; nothing else changes. -/
def Obligations.CloseLatchesTheMarkers : Prop :=
  ∀ (a : Bool) (s : State),
    exec (.close a) s = .next { s with ts := s.ports.inTs, te := s.ports.inTe, done := true }

/-- `APPEND_CLOSE` completes in every state (R91): the effect of APPEND, then that of CLOSE, in one edge. -/
def Obligations.AppendCloseIsAppendThenClose : Prop :=
  ∀ (a : Bool) (s : State),
    (s.len < s.params.maxLen →
      exec (.appendClose a) s = .next
        { s with
          w := s.w.write s.len s.ports.inData
          len := s.len + 1
          ts := s.ports.inTs
          te := s.ports.inTe
          done := true }) ∧
    (s.params.maxLen ≤ s.len →
      exec (.appendClose a) s = .next { s with ovf := true, ts := s.ports.inTs, te := s.ports.inTe, done := true }) ∧
    ∃ u, exec (.append a) s = .next u ∧ exec (.appendClose a) s = exec (.close a) u

/-- The port operation `ACK` completes in every state (R93) and leaves what a RESET of the same state leaves (R109). -/
def Obligations.AckLeavesWhatResetLeaves : Prop :=
  ∀ (d v k l a : Bool) (s : State),
    exec (.portAck v k l) s = .next { s with done := false, len := 0, ovf := false } ∧
    exec (.portAck v k l) s = exec (.reset d v k l a) s

/-- The bytes that an instruction leaves alone (R14, R33, R35): `APPEND` and `APPEND_CLOSE` below `MAXLEN` store the byte on `in_data` in
cell `LEN` and in no other; every other instruction, and those two on a full buffer, leave every cell as it reads. -/
def Obligations.OnlyTheCellAtLenIsStored : Prop :=
  ∀ (i : Instr) (s t : State), exec i s = .next t →
    ((∃ a, i = .append a ∨ i = .appendClose a) → s.len < s.params.maxLen →
      t.cell s.len = .ok s.ports.inData ∧ ∀ c, c ≠ s.len → t.cell c = s.cell c) ∧
    ((∀ a, i ≠ .append a ∧ i ≠ .appendClose a) ∨ s.params.maxLen ≤ s.len → ∀ c, t.cell c = s.cell c)

/-- Which instruction may move which piece of state, and how (R15, R16, R17, R18, R19): no other instruction writes it. -/
def Obligations.OnlyTheNamedOperationsWriteEachRegister : Prop :=
  ∀ (i : Instr) (s t : State), exec i s = .next t →
    let closing := ∃ a, i = .close a ∨ i = .appendClose a
    let appending := ∃ a, i = .append a ∨ i = .appendClose a
    let clearing := ∃ d v k l a, i = .reset d v k l a ∨ i = .portAck v k l
    (t.done ≠ s.done → (t.done = true ∧ closing) ∨ (t.done = false ∧ clearing)) ∧
    (t.ovf ≠ s.ovf → (t.ovf = true ∧ appending ∧ s.params.maxLen ≤ s.len) ∨ (t.ovf = false ∧ clearing)) ∧
    (t.len ≠ s.len → (t.len = s.len + 1 ∧ appending ∧ s.len < s.params.maxLen) ∨ (t.len = 0 ∧ clearing)) ∧
    (t.ts ≠ s.ts → t.ts = s.ports.inTs ∧ closing) ∧
    (t.te ≠ s.te → t.te = s.ports.inTe ∧ closing) ∧
    t.params = s.params

/-! ### The step -/

/-- A step runs the port operation of the control word, once the ports are the caller's and the outputs of the cycle are recorded
(R84, R85): in COLLECT the empty record, for an overflowed window the refusal, for a window that selects no row its
rejection. A row is selected by length and header alone (log 8). -/
def Obligations.StepRunsThePortOperation : Prop :=
  ∀ s : State,
    let after (o : Outputs) : State := { s.takePorts with seen := o }
    (s.done = false → step s = exec (decodeControl (after Outputs.collecting).controlWord) (after Outputs.collecting)) ∧
    (s.done = true → s.ovf = true →
      step s = exec (decodeControl (after Outputs.overflow).controlWord) (after Outputs.overflow)) ∧
    (∀ b e, s.done = true → s.ovf = false → s.window = .ok b → decodeFrame b = .error e →
      step s = exec (decodeControl (after (Outputs.rejected (errorCode e))).controlWord)
        (after (Outputs.rejected (errorCode e))))

/-- A step in HOLD runs the frame row that the window in the buffer decodes to, on the state with the caller's ports, and then the port
operation of the control word on the state that the row leaves. The row is selected by the window's length and
header alone (log 8). -/
def Obligations.StepRunsTheDecodedFrameRow : Prop :=
  ∀ (s : State) (b : List Byte) (i : Instr), s.done = true → s.ovf = false → s.window = .ok b → decodeFrame b = .ok i →
    ∃ u, exec i s.takePorts = .next u ∧ step s = exec (decodeControl u.controlWord) u

/-- What the caller sees in a cycle is the output function of R23 and R94 on the state and the index of that cycle, nothing else
(R84). -/
def Obligations.StepShowsTheOutputFunction : Prop :=
  ∀ s t : State, step s = .next t → s.outputs (s.nextPorts.rdIdx % 2 ^ lenWidth s.params) = .ok t.seen

/-- The state after reset satisfies the invariant. Its parameters and its `TS`, `TE` are the model's choice (log 1, log 3). -/
def Obligations.ResetHasTheInvariant : Prop := State.reset.Inv

/-- Every step keeps the invariant of R27, for all parameters and all inputs. -/
def Obligations.StepKeepsTheInvariant : Prop :=
  ∀ s t : State, s.Inv → step s = .next t → t.Inv

/-- Totality (R97): with `LEN` in its range every step has a next state, whatever the ports, the buffer and the other registers
hold. -/
def Obligations.StepNeverStops : Prop :=
  ∀ s : State, s.len ≤ s.params.maxLen → s.SafeStep

/-- What a window in the making holds (R16, R29, R35; R27, items 3 and 5): after any cycles that keep it open, from an empty window, `LEN`
is the number of bytes delivered, capped at `MAXLEN`; the cells below it hold those bytes in their order; `OVF` says that
there were more. -/
def Obligations.CollectKeepsTheBytesInOrder : Prop :=
  ∀ (s : State) (script rest : List Inputs), s.Empty → s.pending = script ++ rest → script.all keepsOpen = true →
    ∃ t : State, core.run script.length s = .next t ∧ t.pending = rest ∧ t.done = false ∧
      t.len = min (bytesDelivered script).length s.params.maxLen ∧
      (t.ovf = true ↔ s.params.maxLen < (bytesDelivered script).length) ∧
      ∀ i v, i < s.params.maxLen → (bytesDelivered script)[i]? = some v → t.cell i = .ok v

/-- R95: a window transaction from COLLECT with `LEN = 0` and `OVF = 0` presents `decode` of the bytes delivered, from the closing beat
through any number of cycles of HOLD; a window longer than `MAXLEN` is refused. Idle and NULL cycles may stand anywhere before the
closing beat. -/
def Obligations.TransactionRefinesDecode : Prop :=
  ∀ (s : State) (x : Transaction) (rest : List Inputs), s.Empty → s.pending = x.script ++ rest → x.wf s.params = true →
    ∃ t, core.run x.script.length s = .next t ∧ t.pending = rest ∧ t.done = true ∧
      (x.bytes.length ≤ s.params.maxLen →
        ∃ r, decodeWindow x.bytes x.closing.inTs x.closing.inTe = .ok r ∧
          ∀ rd, t.outputs rd = .ok (outputsOf true (some (.result r)) rd)) ∧
      (s.params.maxLen < x.bytes.length → ∀ rd, t.outputs rd = .ok Outputs.overflow)

/-- R96: the result presented for a window depends on its bytes and its markers alone. Two transactions with the same bytes and markers,
from two empty states that agree in nothing but the parameters, however many cycles each takes and whatever the ports carry
where they carry no meaning, present the same outputs. -/
def Obligations.WindowsAreIsolated : Prop :=
  ∀ (s s' : State) (x x' : Transaction) (rest rest' : List Inputs) (t t' : State),
    s.Empty → s'.Empty → s.params = s'.params → s.pending = x.script ++ rest → s'.pending = x'.script ++ rest' →
    x.wf s.params = true → x'.wf s'.params = true →
    x.bytes = x'.bytes → x.closing.inTs = x'.closing.inTs → x.closing.inTe = x'.closing.inTe →
    core.run x.script.length s = .next t → core.run x'.script.length s' = .next t' →
      ∀ rd, t.outputs rd = t'.outputs rd

/-- In HOLD a cycle that is neither RESET nor ACK changes no piece of the block's state, and the outputs stay what they were
(R36, R92). -/
def Obligations.HoldKeepsTheResult : Prop :=
  ∀ s : State, s.len ≤ s.params.maxLen → s.done = true → holdsResult s.nextPorts = true →
    ∃ t, step s = .next t ∧ t.core = s.core ∧ ∀ rd, t.outputs rd = s.outputs rd

/-- The block cannot hang (R97): RESET leads to COLLECT in one step from any state and writes no cell and no marker, so a beat offered
with it is not stored (R123); ACK leads from HOLD to COLLECT; a closing beat leads from COLLECT to HOLD. -/
def Obligations.EveryPhaseIsLeftInOneStep : Prop :=
  ∀ s : State, s.len ≤ s.params.maxLen →
    (s.nextPorts.rst = true → ∃ t, step s = .next t ∧ t.Empty ∧ t.w = s.w ∧ t.ts = s.ts ∧ t.te = s.te) ∧
    (s.nextPorts.rst = false → s.done = true → s.nextPorts.outReady = true → ∃ t, step s = .next t ∧ t.Empty) ∧
    (s.done = false → closesWindow s.nextPorts = true → ∃ t, step s = .next t ∧ t.done = true)

/-- Ports that carry no meaning do not matter (R85): two steps from one state under port values that agree where R85 reads them leave the
block's six pieces of state equal. -/
def Obligations.IgnoredPortsDoNotMatter : Prop :=
  ∀ (s : State) (p q : Inputs) (rest : List Inputs) (t u : State),
    step { s with pending := p :: rest } = .next t → step { s with pending := q :: rest } = .next u →
    p.rst = q.rst →
    (p.rst = false → s.done = true → p.outReady = q.outReady) →
    (p.rst = false → s.done = false →
      p.inValid = q.inValid ∧
        (p.inValid = true →
          p.inKeep = q.inKeep ∧ p.inLast = q.inLast ∧ (p.inKeep = true → p.inData = q.inData) ∧
            (p.inLast = true → p.inTs = q.inTs ∧ p.inTe = q.inTe))) →
      t.core = u.core

/-! ### The output ports -/

/-- Hidden state (R25): cells at or above `LEN`, and the markers while `DONE = 0`, are in no output. -/
def Obligations.HiddenStateIsUnobservable : Prop :=
  ∀ s s' : State, s.params = s'.params → s.len = s'.len → s.ovf = s'.ovf → s.done = s'.done →
    (∀ i, i < s.len → s.cell i = s'.cell i) → (s.done = true → s.ts = s'.ts ∧ s.te = s'.te) →
      ∀ rd, s.outputs rd = s'.outputs rd

/-- R101: the numbers of the rejections and of the refusal on `out_err`, and what `out_ok` says; code 2 never appears. -/
def Obligations.ErrorCodesOnThePort : Prop :=
  ∀ (s : State) (rd : Nat) (o : Outputs), s.outputs rd = .ok o →
    (o.outOk = true ↔ o.outValid = true ∧ o.outErr = 0#3) ∧ o.outErr ≠ 2#3 ∧
    (o.outErr = 0#3 ↔ o.outOk = true ∨ o.outValid = false) ∧ o.outValid = s.done ∧ o.inReady = !s.done ∧
    (∀ b, s.done = true → s.ovf = false → s.window = .ok b →
      (o.outOk = true ↔ ∃ f, decodeWindow b s.ts s.te = .ok (.ok f)) ∧
      (o.outErr = 1#3 ↔ decodeWindow b s.ts s.te = .ok (.reject .tooShort)) ∧
      (o.outErr = 3#3 ↔ decodeWindow b s.ts s.te = .ok (.reject .badPreamble)) ∧
      (o.outErr = 4#3 ↔ decodeWindow b s.ts s.te = .ok (.reject .badStartMarker)) ∧
      (o.outErr = 5#3 ↔ decodeWindow b s.ts s.te = .ok (.reject .badEndMarker)) ∧
      (o.outErr = 6#3 ↔ decodeWindow b s.ts s.te = .ok (.reject .badPostamble))) ∧
    (o.outErr = 7#3 ↔ s.done = true ∧ s.ovf = true)

/-- A result that is not `Ok` shows its error code and nothing else (R113): every field, the number of words, the markers and the word
read port are 0. -/
def Obligations.NoPartialOutput : Prop :=
  ∀ (s : State) (rd : Nat) (o : Outputs), s.outputs rd = .ok o → o.outOk = false →
    o = { Outputs.collecting with inReady := !s.done, outValid := s.done, outErr := o.outErr }

/-- R94: for a presented frame and an index below its number of words, `rd_word` is the data word at that index and the byte of cell
`3 + rd_idx`; for any other index and whenever no frame is presented it is `0x00`; no other output depends on the index. -/
def Obligations.WordReadPort : Prop :=
  ∀ (s : State) (rd : Nat) (o : Outputs), s.outputs rd = .ok o →
    (∀ b f, s.done = true → s.ovf = false → s.window = .ok b → decodeWindow b s.ts s.te = .ok (.ok f) →
      o.outOk = true ∧ o.outNwords = f.dataWords.length ∧
      (rd < f.dataWords.length → f.dataWords[rd]? = some o.rdWord ∧ s.cell (3 + rd) = .ok o.rdWord) ∧
      (f.dataWords.length ≤ rd → o.rdWord = 0x00#8)) ∧
    (o.outOk = false → o.rdWord = 0x00#8) ∧
    ∀ rd', ∃ v, s.outputs rd' = .ok { o with rdWord := v }

/-- The legal values of the output ports (R22): the number of words fits the buffer, the tag has 4 bits, the unknown flag is bit 2 of
the type code. -/
def Obligations.OutputsStayInRange : Prop :=
  ∀ (s : State) (rd : Nat) (o : Outputs), s.outputs rd = .ok o →
    o.outNwords ≤ s.params.maxLen - 6 ∧ o.outTag.toNat ≤ 15 ∧ o.outTypeUnknown = o.outType.getLsbD 2 ∧
    (s.ts < 2 ^ s.params.tw → o.outTs < 2 ^ s.params.tw) ∧ (s.te < 2 ^ s.params.tw → o.outTe < 2 ^ s.params.tw)

/-- `Overflow` outranks every other result (R108, R110): whatever bytes the buffer holds, an overflowed window shows code 7 and nothing
else. -/
def Obligations.OverflowOutranksTheWindow : Prop :=
  ∀ (s : State) (rd : Nat), s.done = true → s.ovf = true → s.outputs rd = .ok Outputs.overflow

/-- When a step stops, and how: only while it presents a window that did not overflow with `LEN` past `MAXLEN`, which R15 excludes, on
the first cell that does not exist. The fault is the model's choice (log 11). -/
def Obligations.StepStopsOnlyPastTheBuffer : Prop :=
  ∀ s : State,
    (s.done = true → s.ovf = false → s.params.maxLen < s.len → step s = .fault (.noSuchCell s.params.maxLen)) ∧
    (s.done = false ∨ s.ovf = true ∨ s.len ≤ s.params.maxLen → s.SafeStep)
end

