-- ==== Sys2Proof/Laws/Decode.lean ====
section
/-! SUPPORT. The small lemmas of the field extractions and of the row decoder. -/

namespace Sys2Proof


@[simp] theorem hi_append (a b : Nibble) : hi (a ++ b) = a := by revert a b; decide
@[simp] theorem lo_append (a b : Nibble) : lo (a ++ b) = b := by revert a b; decide
@[simp] theorem hi_append_lo (b : Byte) : hi b ++ lo b = b := by revert b; decide
@[simp] theorem typeCode_append (c : BitVec 3) (r : BitVec 5) : typeCode (c ++ r) = c := by revert c r; decide
@[simp] theorem reservedBits_append (c : BitVec 3) (r : BitVec 5) : reservedBits (c ++ r) = r := by revert c r; decide
@[simp] theorem typeCode_append_reservedBits (b : Byte) : typeCode b ++ reservedBits b = b := by revert b; decide

/-- Everything `dataWordCount` answers: 0 for Ping; for another type `L - 6`, or the rejection when that is negative (R62). -/
theorem dataWordCount_ping (len : Nat) : dataWordCount 0#3 len = .ok 0 := by simp [dataWordCount]

theorem dataWordCount_of_le {code : BitVec 3} {len : Nat} (hc : code ≠ 0#3) (h : 6 ≤ len) :
    dataWordCount code len = .ok (len - 6) := by
  simp only [dataWordCount, if_neg hc]
  rw [if_neg (by omega)]
  congr 1
  omega

theorem dataWordCount_of_lt {code : BitVec 3} {len : Nat} (hc : code ≠ 0#3) (h : len < 6) :
    dataWordCount code len = .error .negativeDataLength := by
  simp only [dataWordCount, if_neg hc]
  rw [if_pos (by omega)]

/-- A window of at least 6 bytes has a data word count that leaves room for the trailer (R32). -/
theorem dataWordCount_cases {code : BitVec 3} {len : Nat} (h : 6 ≤ len) :
    ∃ n, dataWordCount code len = .ok n ∧ n + 6 ≤ len ∧ (code = 0#3 → n = 0) ∧ (code ≠ 0#3 → n = len - 6) := by
  by_cases hc : code = 0#3
  · exact ⟨0, by simp [hc, dataWordCount_ping], by omega, fun _ => rfl, fun h => absurd hc h⟩
  · exact ⟨len - 6, dataWordCount_of_le hc h, by omega, fun h => absurd h hc, fun _ => rfl⟩

/-- A window of at least six bytes, split as the row decoder splits it. -/
theorem exists_window_parts {b : List Byte} {n : Nat} (h : n + 6 ≤ b.length) :
    ∃ b0 b1 user words crc tagEof post tail,
      b = b0 :: b1 :: user :: (words ++ crc :: tagEof :: post :: tail) ∧ words.length = n := by
  match b, h with
  | b0 :: b1 :: user :: rest, h =>
    simp only [List.length_cons] at h
    have hr : n + 3 ≤ rest.length := by omega
    obtain ⟨crc, tagEof, post, tail, hd⟩ : ∃ crc tagEof post tail, rest.drop n = crc :: tagEof :: post :: tail := by
      match hm : rest.drop n with
      | c :: t :: p :: tl => exact ⟨c, t, p, tl, rfl⟩
      | [] | [_] | [_, _] =>
        have := congrArg List.length hm
        simp at this
        omega
    exact ⟨b0, b1, user, rest.take n, crc, tagEof, post, tail, by rw [← hd, List.take_append_drop], by simp; omega⟩
  | [], h | [_], h | [_, _], h => simp at h

/-- A window of at least six bytes in the parts of R39, `N` being what R62 says. -/
theorem decodeFrame_parts (b0 b1 user : Byte) (words : List Byte) (crc tagEof post : Byte) (tail : List Byte)
    (hn : dataWordCount (typeCode b1) (words.length + tail.length + 6) = .ok words.length) :
    decodeFrame (b0 :: b1 :: user :: (words ++ crc :: tagEof :: post :: tail)) =
      if hi b0 ≠ 0xF#4 then .error .badPreamble
      else if lo b0 ≠ 0x9#4 then .error .badStartMarker
      else .ok (frameRow (typeCode b1) (reservedBits b1) user words (trailerOf crc tagEof post) tail) := by
  have hl : (b0 :: b1 :: user :: (words ++ crc :: tagEof :: post :: tail)).length = words.length + tail.length + 6 := by
    simp only [List.length_cons, List.length_append]
    omega
  have h6 : ¬ (words.length + tail.length + 6 < 6) := by omega
  simp only [decodeFrame, hl, h6, if_false, hn,
    List.drop_left, List.take_left]

/-- Every window of at least six bytes in the parts of R39: its data words number what R62 says, and there is a tail only for Ping. -/
theorem exists_window_fields {b : List Byte} (h : 6 ≤ b.length) :
    ∃ b0 b1 user words crc tagEof post tail,
      b = b0 :: b1 :: user :: (words ++ crc :: tagEof :: post :: tail) ∧
      dataWordCount (typeCode b1) (words.length + tail.length + 6) = .ok words.length ∧
      (typeCode b1 = 0#3 → words = []) ∧ (typeCode b1 ≠ 0#3 → tail = []) := by
  obtain ⟨n, hn, h6, h0, h1⟩ := dataWordCount_cases (code := typeCode (b.getD 1 0#8)) h
  obtain ⟨b0, b1, user, words, crc, tagEof, post, tail, rfl, rfl⟩ := exists_window_parts h6
  have e : (b0 :: b1 :: user :: (words ++ crc :: tagEof :: post :: tail)).length = words.length + tail.length + 6 := by
    simp only [List.length_cons, List.length_append]
    omega
  rw [e] at hn h1
  refine ⟨b0, b1, user, words, crc, tagEof, post, tail, rfl, by simpa using hn, fun hc => ?_, fun hc => ?_⟩
  · exact List.eq_nil_of_length_eq_zero (h0 (by simpa using hc))
  · have := h1 (by simpa using hc)
    exact List.eq_nil_of_length_eq_zero (by omega)

/-- A window too short for a frame selects no row (R60). -/
theorem decodeFrame_short {b : List Byte} (h : b.length < 6) : decodeFrame b = .error .tooShort := by
  simp [decodeFrame, h]

end Sys2Proof
end

