-- ==== Sys2Proof/Laws/FrameDecoder.lean ====
section
/-! SUPPORT. What the byte reads of a window and `FrameDecoder.decode` do, said once (spec/40_frame_decode.md rule R59). -/

namespace Sys2Proof.Machine

theorem readByte_of_getElem {b : List Byte} {i : Nat} {v : Byte} (h : b[i]? = some v) : readByte b i = .ok v := by
  simp [readByte, h]

/-- A slice inside the window reads its bytes in order. -/
theorem readSlice_append (pre words post : List Byte) :
    readSlice (pre ++ (words ++ post)) pre.length words.length = .ok words := by
  induction words generalizing pre with
  | nil => rfl
  | cons v vs ih =>
    have hv : readByte (pre ++ (v :: vs ++ post)) pre.length = .ok v := readByte_of_getElem (by simp)
    have hs := ih (pre ++ [v])
    rw [List.length_append, List.length_singleton, List.append_assoc, List.singleton_append] at hs
    rw [List.length_cons, readSlice, hv, List.cons_append, hs]
    rfl

/-- The verdict of the four markers on the four marker bytes' nibbles, in the order of R64. -/
def markerVerdict (b0 tagEof post : Byte) : Option DecodeError :=
  if hi b0 ≠ 0xF#4 then some .badPreamble
  else if lo b0 ≠ 0x9#4 then some .badStartMarker
  else if lo tagEof ≠ 0x6#4 then some .badEndMarker
  else if hi post ≠ 0xF#4 then some .badPostamble
  else none

theorem checkMarkers_eq {b : List Byte} {n : Nat} {b0 tagEof post : Byte} (h0 : b[0]? = some b0)
    (ht : b[n + 4]? = some tagEof) (hp : b[n + 5]? = some post) :
    checkMarkers b n = .ok (markerVerdict b0 tagEof post) := by
  have r0 : readByte b 0 = .ok b0 := readByte_of_getElem h0
  have rt : readByte b (3 + n + 1) = .ok tagEof := readByte_of_getElem (by rw [← ht]; congr 1; omega)
  have rp : readByte b (3 + n + 2) = .ok post := readByte_of_getElem (by rw [← hp]; congr 1; omega)
  simp only [checkMarkers, markerVerdict, r0, rt, rp]
  by_cases h1 : hi b0 = 0xF#4 <;> by_cases h2 : lo b0 = 0x9#4 <;> by_cases h3 : lo tagEof = 0x6#4 <;>
    by_cases h4 : hi post = 0xF#4 <;> simp [h1, h2, h3, h4, bind, Except.bind, pure, Except.pure]

/-- The decoded frame of a window in parts. -/
def frameOfParts {T : Type} (b1 user : Byte) (words : List Byte) (crc tagEof : Byte) (ts te : T) : DecodedFrame T where
  frameType := frameTypeOf (typeCode b1)
  userData := user
  dataWords := words
  crc := crc
  frameTag := frameTagOf (hi tagEof)
  startTime := ts
  endTime := te

/-- The result of a window whose markers have a verdict: the rejection, or the frame. -/
def resultOfVerdict {T : Type} (v : Option DecodeError) (f : DecodedFrame T) : FrameResult T :=
  match v with
  | some e => .reject e
  | none => .ok f

@[simp] theorem resultOfVerdict_some {T : Type} (e : DecodeError) (f : DecodedFrame T) :
    resultOfVerdict (some e) f = .reject e := rfl
@[simp] theorem resultOfVerdict_none {T : Type} (f : DecodedFrame T) : resultOfVerdict none f = .ok f := rfl

/-- `decode` of a window that is too short. -/
theorem decodeWindow_short {T : Type} {b : List Byte} (h : b.length < 6) (ts te : T) :
    decodeWindow b ts te = .ok (.reject .tooShort) := by
  simp [decodeWindow, h]

/-- `decode` of a window of at least six bytes, in the parts of R39, `N` being what R62 says: the first wrong marker, or the frame. -/
theorem decodeWindow_parts {T : Type} (b0 b1 user : Byte) (words : List Byte) (crc tagEof post : Byte) (tail : List Byte)
    (hn : dataWordCount (typeCode b1) (words.length + tail.length + 6) = .ok words.length) (ts te : T) :
    decodeWindow (b0 :: b1 :: user :: (words ++ crc :: tagEof :: post :: tail)) ts te =
      .ok (resultOfVerdict (markerVerdict b0 tagEof post) (frameOfParts b1 user words crc tagEof ts te)) := by
  generalize hb : b0 :: b1 :: user :: (words ++ crc :: tagEof :: post :: tail) = b
  have hl : b.length = words.length + tail.length + 6 := by
    rw [← hb]
    simp only [List.length_cons, List.length_append]
    omega
  have h6 : ¬ (words.length + tail.length + 6 < 6) := by omega
  have g1 : readByte b 1 = .ok b1 := readByte_of_getElem (by simp [← hb])
  have g2 : readByte b 2 = .ok user := readByte_of_getElem (by simp [← hb])
  have gc : readByte b (3 + words.length) = .ok crc :=
    readByte_of_getElem (by rw [← hb, show 3 + words.length = words.length + 3 from Nat.add_comm ..]; simp)
  have ge : b[words.length + 4]? = some tagEof := by simp [← hb]
  have gp : b[words.length + 5]? = some post := by simp [← hb]
  have gt : readByte b (3 + words.length + 1) = .ok tagEof :=
    readByte_of_getElem (by rw [← ge]; congr 1; omega)
  have gs : readSlice b 3 words.length = .ok words := by
    rw [← hb]
    exact readSlice_append [b0, b1, user] words (crc :: tagEof :: post :: tail)
  have hm := checkMarkers_eq (b := b) (n := words.length) (b0 := b0) (by simp [← hb]) ge gp
  simp only [decodeWindow, hl, h6, if_false, g1, bind, Except.bind, hn, hm, pure, Except.pure]
  cases markerVerdict b0 tagEof post with
  | some e => rfl
  | none => simp [assembleFrame, g2, gs, gc, gt, bind, Except.bind, pure, Except.pure, frameOfParts]

/-- The markers are right exactly when each of the four nibbles has its constant. -/
theorem markerVerdict_eq_none {b0 tagEof post : Byte} :
    markerVerdict b0 tagEof post = none ↔ hi b0 = 0xF#4 ∧ lo b0 = 0x9#4 ∧ lo tagEof = 0x6#4 ∧ hi post = 0xF#4 := by
  unfold markerVerdict
  by_cases h1 : hi b0 = 0xF#4 <;> by_cases h2 : lo b0 = 0x9#4 <;> by_cases h3 : lo tagEof = 0x6#4 <;>
    by_cases h4 : hi post = 0xF#4 <;> simp [h1, h2, h3, h4]

/-- Everything `decode` can answer for a window: too short, or the verdict of the markers in the window's parts. -/
theorem decodeWindow_cases {T : Type} (b : List Byte) (ts te : T) :
    (b.length < 6 ∧ decodeWindow b ts te = .ok (.reject .tooShort)) ∨
    (6 ≤ b.length ∧ ∃ b0 b1 user words crc tagEof post tail,
      b = b0 :: b1 :: user :: (words ++ crc :: tagEof :: post :: tail) ∧
      dataWordCount (typeCode b1) (words.length + tail.length + 6) = .ok words.length ∧
      (typeCode b1 = 0#3 → words = []) ∧ (typeCode b1 ≠ 0#3 → tail = []) ∧
      decodeWindow b ts te =
        .ok (resultOfVerdict (markerVerdict b0 tagEof post) (frameOfParts b1 user words crc tagEof ts te))) := by
  rcases Nat.lt_or_ge b.length 6 with h | h
  · exact .inl ⟨h, decodeWindow_short h ts te⟩
  · obtain ⟨b0, b1, user, words, crc, tagEof, post, tail, rfl, hn, hw, ht⟩ := exists_window_fields h
    exact .inr ⟨h, b0, b1, user, words, crc, tagEof, post, tail, rfl, hn, hw, ht, decodeWindow_parts _ _ _ _ _ _ _ _ hn ts te⟩

end Sys2Proof.Machine
end

