-- ==== Sys2Proof/Laws/State.lean ====
section
/-! SUPPORT. One lemma per field per named update of the state. -/

namespace Sys2Proof.Machine

/-! ### `takePorts` -/

@[simp] theorem State.takePorts_params (s : State) : s.takePorts.params = s.params := rfl
@[simp] theorem State.takePorts_w (s : State) : s.takePorts.w = s.w := rfl
@[simp] theorem State.takePorts_len (s : State) : s.takePorts.len = s.len := rfl
@[simp] theorem State.takePorts_ovf (s : State) : s.takePorts.ovf = s.ovf := rfl
@[simp] theorem State.takePorts_done (s : State) : s.takePorts.done = s.done := rfl
@[simp] theorem State.takePorts_ts (s : State) : s.takePorts.ts = s.ts := rfl
@[simp] theorem State.takePorts_te (s : State) : s.takePorts.te = s.te := rfl
@[simp] theorem State.takePorts_ports (s : State) : s.takePorts.ports = fitPorts s.params s.nextPorts := rfl
@[simp] theorem State.takePorts_pending (s : State) : s.takePorts.pending = s.pending.tail := rfl
@[simp] theorem State.takePorts_cycle (s : State) : s.takePorts.cycle = s.cycle + 1 := rfl
@[simp] theorem State.takePorts_seen (s : State) : s.takePorts.seen = s.seen := rfl

/-! ### `present` -/

@[simp] theorem State.present_params (s : State) (r) : (s.present r).params = s.params := rfl
@[simp] theorem State.present_w (s : State) (r) : (s.present r).w = s.w := rfl
@[simp] theorem State.present_len (s : State) (r) : (s.present r).len = s.len := rfl
@[simp] theorem State.present_ovf (s : State) (r) : (s.present r).ovf = s.ovf := rfl
@[simp] theorem State.present_done (s : State) (r) : (s.present r).done = s.done := rfl
@[simp] theorem State.present_ts (s : State) (r) : (s.present r).ts = s.ts := rfl
@[simp] theorem State.present_te (s : State) (r) : (s.present r).te = s.te := rfl
@[simp] theorem State.present_ports (s : State) (r) : (s.present r).ports = s.ports := rfl
@[simp] theorem State.present_pending (s : State) (r) : (s.present r).pending = s.pending := rfl
@[simp] theorem State.present_cycle (s : State) (r) : (s.present r).cycle = s.cycle := rfl
@[simp] theorem State.present_seen (s : State) (r) :
    (s.present r).seen = outputsOf s.done (s.resultShown r) s.ports.rdIdx := rfl

/-! ### `presentNoDecode` -/

@[simp] theorem State.presentNoDecode_params (s : State) : s.presentNoDecode.params = s.params := rfl
@[simp] theorem State.presentNoDecode_w (s : State) : s.presentNoDecode.w = s.w := rfl
@[simp] theorem State.presentNoDecode_len (s : State) : s.presentNoDecode.len = s.len := rfl
@[simp] theorem State.presentNoDecode_ovf (s : State) : s.presentNoDecode.ovf = s.ovf := rfl
@[simp] theorem State.presentNoDecode_done (s : State) : s.presentNoDecode.done = s.done := rfl
@[simp] theorem State.presentNoDecode_ts (s : State) : s.presentNoDecode.ts = s.ts := rfl
@[simp] theorem State.presentNoDecode_te (s : State) : s.presentNoDecode.te = s.te := rfl
@[simp] theorem State.presentNoDecode_ports (s : State) : s.presentNoDecode.ports = s.ports := rfl
@[simp] theorem State.presentNoDecode_pending (s : State) : s.presentNoDecode.pending = s.pending := rfl
@[simp] theorem State.presentNoDecode_cycle (s : State) : s.presentNoDecode.cycle = s.cycle := rfl
@[simp] theorem State.presentNoDecode_seen (s : State) :
    s.presentNoDecode.seen = outputsOf s.done (if s.done then some .overflow else none) s.ports.rdIdx := rfl

/-! ### `clearWindow` -/

@[simp] theorem State.clearWindow_params (s : State) : s.clearWindow.params = s.params := rfl
@[simp] theorem State.clearWindow_w (s : State) : s.clearWindow.w = s.w := rfl
@[simp] theorem State.clearWindow_len (s : State) : s.clearWindow.len = 0 := rfl
@[simp] theorem State.clearWindow_ovf (s : State) : s.clearWindow.ovf = false := rfl
@[simp] theorem State.clearWindow_done (s : State) : s.clearWindow.done = false := rfl
@[simp] theorem State.clearWindow_ts (s : State) : s.clearWindow.ts = s.ts := rfl
@[simp] theorem State.clearWindow_te (s : State) : s.clearWindow.te = s.te := rfl
@[simp] theorem State.clearWindow_ports (s : State) : s.clearWindow.ports = s.ports := rfl
@[simp] theorem State.clearWindow_pending (s : State) : s.clearWindow.pending = s.pending := rfl
@[simp] theorem State.clearWindow_cycle (s : State) : s.clearWindow.cycle = s.cycle := rfl
@[simp] theorem State.clearWindow_seen (s : State) : s.clearWindow.seen = s.seen := rfl

/-! ### `closeWindow` -/

@[simp] theorem State.closeWindow_params (s : State) : s.closeWindow.params = s.params := rfl
@[simp] theorem State.closeWindow_w (s : State) : s.closeWindow.w = s.w := rfl
@[simp] theorem State.closeWindow_len (s : State) : s.closeWindow.len = s.len := rfl
@[simp] theorem State.closeWindow_ovf (s : State) : s.closeWindow.ovf = s.ovf := rfl
@[simp] theorem State.closeWindow_done (s : State) : s.closeWindow.done = true := rfl
@[simp] theorem State.closeWindow_ts (s : State) : s.closeWindow.ts = s.ports.inTs := rfl
@[simp] theorem State.closeWindow_te (s : State) : s.closeWindow.te = s.ports.inTe := rfl
@[simp] theorem State.closeWindow_ports (s : State) : s.closeWindow.ports = s.ports := rfl
@[simp] theorem State.closeWindow_pending (s : State) : s.closeWindow.pending = s.pending := rfl
@[simp] theorem State.closeWindow_cycle (s : State) : s.closeWindow.cycle = s.cycle := rfl
@[simp] theorem State.closeWindow_seen (s : State) : s.closeWindow.seen = s.seen := rfl

/-! ### `appendByte` -/

/-- Everything `appendByte` can do: store the byte at `LEN` and count it, or set `OVF` on a full buffer (R89). -/
theorem State.appendByte_cases (s : State) :
    (s.len < s.params.maxLen ∧ s.appendByte = { s with w := s.w.write s.len s.ports.inData, len := s.len + 1 }) ∨
      (s.params.maxLen ≤ s.len ∧ s.appendByte = { s with ovf := true }) := by
  by_cases h : s.len < s.params.maxLen
  · exact .inl ⟨h, by simp [State.appendByte, State.full, h]⟩
  · exact .inr ⟨Nat.le_of_not_lt h, by simp [State.appendByte, State.full, h]⟩

theorem State.appendByte_of_lt {s : State} (h : s.len < s.params.maxLen) :
    s.appendByte = { s with w := s.w.write s.len s.ports.inData, len := s.len + 1 } := by
  simp [State.appendByte, State.full, h]

theorem State.appendByte_of_le {s : State} (h : s.params.maxLen ≤ s.len) : s.appendByte = { s with ovf := true } := by
  simp [State.appendByte, State.full, Nat.not_lt.mpr h]

@[simp] theorem State.appendByte_params (s : State) : s.appendByte.params = s.params := by
  rcases s.appendByte_cases with ⟨-, h⟩ | ⟨-, h⟩ <;> simp [h]
@[simp] theorem State.appendByte_done (s : State) : s.appendByte.done = s.done := by
  rcases s.appendByte_cases with ⟨-, h⟩ | ⟨-, h⟩ <;> simp [h]
@[simp] theorem State.appendByte_ts (s : State) : s.appendByte.ts = s.ts := by
  rcases s.appendByte_cases with ⟨-, h⟩ | ⟨-, h⟩ <;> simp [h]
@[simp] theorem State.appendByte_te (s : State) : s.appendByte.te = s.te := by
  rcases s.appendByte_cases with ⟨-, h⟩ | ⟨-, h⟩ <;> simp [h]
@[simp] theorem State.appendByte_ports (s : State) : s.appendByte.ports = s.ports := by
  rcases s.appendByte_cases with ⟨-, h⟩ | ⟨-, h⟩ <;> simp [h]
@[simp] theorem State.appendByte_pending (s : State) : s.appendByte.pending = s.pending := by
  rcases s.appendByte_cases with ⟨-, h⟩ | ⟨-, h⟩ <;> simp [h]
@[simp] theorem State.appendByte_cycle (s : State) : s.appendByte.cycle = s.cycle := by
  rcases s.appendByte_cases with ⟨-, h⟩ | ⟨-, h⟩ <;> simp [h]
@[simp] theorem State.appendByte_seen (s : State) : s.appendByte.seen = s.seen := by
  rcases s.appendByte_cases with ⟨-, h⟩ | ⟨-, h⟩ <;> simp [h]

end Sys2Proof.Machine
end

