-- ==== Sys2Proof/Laws/Memory.lean ====
section
/-! SUPPORT. The laws of the window buffer: read after write, and that every operation keeps the canonical form. -/

namespace Sys2Proof.Machine

theorem Memory.read_write_same (m : Memory) (a : Nat) (v : Byte) : (m.write a v).read a = some v := by
  induction m with
  | nil => simp [Memory.write, Memory.read]
  | cons c m ih =>
    obtain ⟨b, x⟩ := c
    simp only [Memory.write]
    split
    · simp [Memory.read]
    · split
      · simp [Memory.read]
      · simp_all [Memory.read]

theorem Memory.read_write_other (m : Memory) {a c : Nat} (v : Byte) (h : c ≠ a) : (m.write a v).read c = m.read c := by
  induction m with
  | nil => simp [Memory.write, Memory.read, h, Memory.unlisted]
  | cons e m ih =>
    obtain ⟨b, x⟩ := e
    simp only [Memory.write]
    split
    · simp [Memory.read, h]
    · split
      · subst_vars
        simp [Memory.read, h]
      · simp only [Memory.read, ih]

/-- Reading after a write, both cases at once. -/
theorem Memory.read_write (m : Memory) (a c : Nat) (v : Byte) :
    (m.write a v).read c = if c = a then some v else m.read c := by
  split
  · subst_vars
    exact m.read_write_same _ v
  · exact m.read_write_other v ‹_›

/-- A canonical buffer whose first index is above `a`. -/
theorem Memory.wf_cons {a : Nat} {v : Byte} {m : Memory} (hm : m.wf = true) (h : ∀ c ∈ m.head?, a < c.1) :
    Memory.wf ((a, v) :: m) = true := by
  cases m with
  | nil => rfl
  | cons c m => simp_all [Memory.wf]

theorem Memory.wf_tail {c : Host.Cell} {m : Memory} (h : Memory.wf (c :: m) = true) : m.wf = true := by
  cases m with
  | nil => rfl
  | cons d m =>
    simp only [Memory.wf, Bool.and_eq_true] at h
    exact h.2

theorem Memory.head_lt {b : Nat} {x : Byte} {m : Memory} (h : Memory.wf ((b, x) :: m) = true) : ∀ c ∈ m.head?, b < c.1 := by
  cases m with
  | nil => simp
  | cons d m =>
    simp only [Memory.wf, Bool.and_eq_true, decide_eq_true_eq] at h
    simp [h.1]

/-- The first index after a write is the written one or the old first one. -/
theorem Memory.head_write (m : Memory) (a : Nat) (v : Byte) {b : Nat} (hb : b < a) (h : ∀ c ∈ m.head?, b < c.1) :
    ∀ c ∈ (m.write a v).head?, b < c.1 := by
  cases m with
  | nil => simpa [Memory.write] using hb
  | cons d m =>
    obtain ⟨e, x⟩ := d
    simp only [Memory.write]
    split
    · simpa using hb
    · split
      · simpa using hb
      · simpa using h

/-- A write keeps the canonical form. -/
theorem Memory.wf_write (m : Memory) (a : Nat) (v : Byte) (hm : m.wf = true) : (m.write a v).wf = true := by
  induction m with
  | nil => rfl
  | cons d m ih =>
    obtain ⟨b, x⟩ := d
    simp only [Memory.write]
    split
    · next h => exact Memory.wf_cons hm (by simpa using h)
    · split
      · next h =>
        subst h
        exact Memory.wf_cons (Memory.wf_tail hm) (Memory.head_lt hm)
      · next h1 h2 =>
        exact Memory.wf_cons (ih (Memory.wf_tail hm)) (Memory.head_write m a v (by omega) (Memory.head_lt hm))

/-- A buffer is below `n` exactly when every listed index is. -/
theorem Memory.below_iff (n : Nat) (m : Memory) : m.below n = true ↔ ∀ c ∈ m, c.1 < n := by
  simp [Memory.below]

/-- A written buffer lists nothing but the written cell and what it listed before. -/
theorem Memory.mem_write (m : Memory) (a : Nat) (v : Byte) : ∀ c ∈ m.write a v, c = (a, v) ∨ c ∈ m := by
  induction m with
  | nil => simp [Memory.write]
  | cons d m ih =>
    simp only [Memory.write]
    split
    · simp
    · split <;> intro c hc <;> rcases List.mem_cons.mp hc with rfl | hc
      · exact .inl rfl
      · exact .inr (List.mem_cons_of_mem _ hc)
      · exact .inr (List.mem_cons_self ..)
      · exact (ih c hc).imp_right (List.mem_cons_of_mem _)

/-- A write below `n` keeps every index below `n`. -/
theorem Memory.below_write (m : Memory) (a : Nat) (v : Byte) {n : Nat} (ha : a < n) (hm : m.below n = true) :
    (m.write a v).below n = true := by
  rw [Memory.below_iff] at hm ⊢
  intro c hc
  rcases Memory.mem_write m a v c hc with rfl | h
  · exact ha
  · exact hm c h

/-- Reset lists nothing, which is canonical. -/
theorem Memory.wf_reset : State.reset.w.wf = true := rfl

/-- Every operation on the state keeps the buffer canonical. -/
theorem State.appendByte_wf (s : State) (h : s.w.wf = true) : s.appendByte.w.wf = true := by
  rcases s.appendByte_cases with ⟨-, e⟩ | ⟨-, e⟩
  · simpa [e] using Memory.wf_write _ _ _ h
  · simpa [e] using h

theorem State.loadWindow_wf (b : List Byte) (i : Nat) (s : State) (h : s.w.wf = true) : (s.loadWindow i b).w.wf = true := by
  induction b generalizing i s with
  | nil => exact h
  | cons v vs ih => exact ih _ _ (Memory.wf_write _ _ _ h)

end Sys2Proof.Machine
end

