-- ==== Sys2Proof/Laws/Ops.lean ====
section
/-! SUPPORT. What the shared operations of a cycle can do, said once each. -/

namespace Sys2Proof.Machine

/-! ### The window in the buffer -/

theorem State.cell_of_lt {s : State} {i : Nat} (h : i < s.params.maxLen) : s.cell i = .ok (s.cellBits i) := by
  simp [State.cell, h]

/-- Cells inside the buffer are read in order. -/
theorem State.cells_of_le {s : State} (n i : Nat) (h : i + n ≤ s.params.maxLen) :
    s.cells i n = .ok ((List.range' i n).map s.cellBits) := by
  induction n generalizing i with
  | zero => rfl
  | succ n ih =>
    simp only [State.cells, State.cell_of_lt (show i < s.params.maxLen by omega), ih (i + 1) (by omega)]
    rfl

/-- A read of cells answers only inside the buffer. -/
theorem State.cells_eq_ok {s : State} {n i : Nat} {b : List Byte} (h : s.cells i n = .ok b) :
    (0 < n → i + n ≤ s.params.maxLen) ∧ b = (List.range' i n).map s.cellBits := by
  induction n generalizing i b with
  | zero =>
    obtain rfl : b = [] := by simpa [State.cells, eq_comm] using h
    exact ⟨by omega, rfl⟩
  | succ n ih =>
    by_cases hi : i < s.params.maxLen
    · simp only [State.cells, State.cell_of_lt hi, bind, Except.bind] at h
      split at h
      · cases h
      · next vs hv =>
        obtain ⟨h1, h2⟩ := ih hv
        obtain rfl : b = s.cellBits i :: vs := by simpa [pure, Except.pure, eq_comm] using h
        refine ⟨fun _ => ?_, by rw [h2]; rfl⟩
        rcases Nat.eq_zero_or_pos n with rfl | hn
        · omega
        · have := h1 hn
          omega
    · simp [State.cells, State.cell, hi, bind, Except.bind] at h

/-- The window is `W[0..LEN)` whenever `LEN` is in its range (R28). -/
theorem State.window_of_le {s : State} (h : s.len ≤ s.params.maxLen) :
    s.window = .ok ((List.range s.len).map s.cellBits) := by
  rw [State.window, State.cells_of_le _ _ (by omega), List.range_eq_range']

theorem State.window_eq_ok {s : State} {b : List Byte} (h : s.window = .ok b) :
    s.len ≤ s.params.maxLen ∧ b = (List.range s.len).map s.cellBits := by
  obtain ⟨h1, h2⟩ := State.cells_eq_ok h
  refine ⟨?_, by rw [h2, List.range_eq_range']⟩
  rcases Nat.eq_zero_or_pos s.len with hz | hp
  · omega
  · have := h1 hp
    omega

/-- Cells are read from the buffer and the parameters alone. -/
theorem State.cells_congr {s t : State} (hp : t.params = s.params) (hw : t.w = s.w) (i n : Nat) : t.cells i n = s.cells i n := by
  have hc : ∀ j, t.cell j = s.cell j := fun j => by simp [State.cell, State.cellBits, hp, hw]
  induction n generalizing i with
  | zero => rfl
  | succ n ih => simp [State.cells, hc, ih]

theorem State.window_congr {s t : State} (hp : t.params = s.params) (hw : t.w = s.w) (hl : t.len = s.len) :
    t.window = s.window := by
  rw [State.window, State.window, hl, State.cells_congr hp hw]

@[simp] theorem State.takePorts_window (s : State) : s.takePorts.window = s.window := State.window_congr rfl rfl rfl

/-! ### A cycle -/

/-- Executing a decoded frame row presents a result and changes nothing else. -/
theorem exec_of_decodeFrame {b : List Byte} {i : Instr} (h : decodeFrame b = .ok i) (s : State) :
    ∃ r, exec i s = .next (s.present r) := by
  by_cases hl : b.length < 6
  · simp [decodeFrame_short hl] at h
  · obtain ⟨n, hn, h6, -⟩ := dataWordCount_cases (code := typeCode (b.getD 1 0#8)) (Nat.le_of_not_lt hl)
    obtain ⟨b0, b1, user, words, crc, tagEof, post, tail, rfl, rfl⟩ := exists_window_parts h6
    have e : (b0 :: b1 :: user :: (words ++ crc :: tagEof :: post :: tail)).length = words.length + tail.length + 6 := by
      simp only [List.length_cons, List.length_append]
      omega
    rw [e] at hn
    rw [decodeFrame_parts _ _ _ _ _ _ _ _ (by simpa using hn)] at h
    split at h
    · cases h
    · split at h
      · cases h
      · obtain rfl := Except.ok.inj h
        simp only [frameRow]
        split
        · exact ⟨_, rfl⟩
        · split
          · exact ⟨_, rfl⟩
          · split
            · exact ⟨_, rfl⟩
            · split <;> exact ⟨_, rfl⟩

/-- Settling the output ports writes the record of the ports and nothing else. -/
theorem settle_eq_next {s t : State} (h : settle s = .next t) : ∃ o, t = { s with seen := o } := by
  simp only [settle] at h
  split at h
  · split at h
    · cases h
    · split at h
      · exact ⟨_, by simpa [State.present] using h.symm⟩
      · next i hi =>
        obtain ⟨r, hr⟩ := exec_of_decodeFrame hi s
        rw [hr] at h
        exact ⟨_, by simpa [State.present] using h.symm⟩
  · exact ⟨_, by simpa [State.presentNoDecode] using h.symm⟩

/-- Settling never refuses, and faults only for a window past the buffer. -/
theorem settle_of_le {s : State} (h : s.len ≤ s.params.maxLen) : ∃ o, settle s = .next { s with seen := o } := by
  simp only [settle]
  split
  · rw [State.window_of_le h]
    dsimp only
    split
    · exact ⟨_, rfl⟩
    · next i hi =>
      obtain ⟨r, hr⟩ := exec_of_decodeFrame hi s
      exact ⟨_, by rw [hr]; rfl⟩
  · exact ⟨_, rfl⟩

/-- Settling in COLLECT shows the empty record (R23). -/
theorem settle_collect {s : State} (h : s.done = false) : settle s = .next { s with seen := Outputs.collecting } := by
  simp [settle, h, State.presentNoDecode, outputsOf, Outputs.collecting, outErrOf]

/-- A step that answers has settled the ports and performed the operation that the control word selects. -/
theorem step_eq_next {s t : State} (h : step s = .next t) :
    ∃ o, settle s.takePorts = .next { s.takePorts with seen := o } ∧ clockEdge { s.takePorts with seen := o } = .next t := by
  simp only [step, clockCycle] at h
  split at h
  · next u hu =>
    obtain ⟨o, rfl⟩ := settle_eq_next hu
    exact ⟨o, hu, h⟩
  · cases h
  · cases h

/-- What the edge can do (R85): clear the window, change nothing, store a byte, close the window, or both. -/
theorem clockEdge_cases (s : State) :
    (clockEdge s = .next s.clearWindow ∧ (s.ports.rst = true ∨ s.done = true ∧ s.ports.outReady = true)) ∨
    (clockEdge s = .next s ∧ s.ports.rst = false ∧
      (s.done = true ∧ s.ports.outReady = false ∨ s.done = false ∧ s.ports.inValid = false ∨
        s.done = false ∧ s.ports.inValid = true ∧ s.ports.inKeep = false ∧ s.ports.inLast = false)) ∨
    (clockEdge s = .next s.appendByte ∧ s.ports.rst = false ∧ s.done = false ∧ s.ports.inValid = true ∧
      s.ports.inKeep = true ∧ s.ports.inLast = false) ∨
    (clockEdge s = .next s.closeWindow ∧ s.ports.rst = false ∧ s.done = false ∧ s.ports.inValid = true ∧
      s.ports.inKeep = false ∧ s.ports.inLast = true) ∨
    (clockEdge s = .next s.appendByte.closeWindow ∧ s.ports.rst = false ∧ s.done = false ∧ s.ports.inValid = true ∧
      s.ports.inKeep = true ∧ s.ports.inLast = true) := by
  have key : ∀ r d v k l a : Bool, decodeControl (controlBits r d v k l a) =
      if r then .reset d v k l a
      else if d then (if a then .portAck v k l else .hold v k l)
      else if v then (if k then (if l then .appendClose a else .append a) else (if l then .close a else .null a))
      else .idle k l a := by decide
  simp only [clockEdge, State.controlWord, key]
  cases s.ports.rst <;> cases s.done <;> cases s.ports.inValid <;> cases s.ports.inKeep <;> cases s.ports.inLast <;>
    cases s.ports.outReady <;>
    simp [exec, execReset, execIdle, execNull, execAppend, execClose, execAppendClose, execHold, execPortAck]

/-- A run of the machine takes one step and goes on. -/
theorem run_of_step {n : Nat} {s t : State} (h : step s = .next t) : core.run (n + 1) s = core.run n t :=
  (Host.Core.run.eq_2 core s n).trans (by rw [show core.step s = .next t from h])

/-! ### The output function -/

/-- In COLLECT the output function is the empty record (R23). -/
theorem State.outputs_collect {s : State} (h : s.done = false) (rd : Nat) : s.outputs rd = .ok Outputs.collecting := by
  simp [State.outputs, State.result, h, bind, Except.bind, pure, Except.pure, outputsOf, Outputs.collecting, outErrOf]

/-- In HOLD of a window that did not overflow the output function shows the result of that window (R23). -/
theorem State.outputs_hold {s : State} {b : List Byte} {r : FrameResult Nat} (hd : s.done = true) (ho : s.ovf = false)
    (hw : s.window = .ok b) (hr : decodeWindow b s.ts s.te = .ok r) (rd : Nat) :
    s.outputs rd = .ok (outputsOf true (some (.result r)) rd) := by
  simp [State.outputs, State.result, hd, ho, hw, hr, bind, Except.bind, pure, Except.pure]

end Sys2Proof.Machine
end

