-- ==== Sys2Proof/Laws/PerInstr.lean ====
section
/-! SUPPORT. Statements made per instruction: one family, one lemma per constructor. -/

namespace Sys2Proof.Laws.RowPattern

/-- The match and mask of an instruction's row in spec/opcode_table.json, on the header word `H` (R48) or the control word `C`
(R54). -/
def matchMask : Instr → Nat × Nat
  | .ping _ _ _ _ => (0xF900, 0xFFE0)
  | .data _ _ _ _ => (0xF920, 0xFFE0)
  | .frameAck _ _ _ _ => (0xF940, 0xFFE0)
  | .nak _ _ _ _ => (0xF960, 0xFFE0)
  | .unknown _ _ _ _ _ => (0xF980, 0xFF80)
  | .reset _ _ _ _ _ => (0x20, 0x20)
  | .idle _ _ _ => (0x00, 0x38)
  | .null _ => (0x08, 0x3E)
  | .append _ => (0x0C, 0x3E)
  | .close _ => (0x0A, 0x3E)
  | .appendClose _ => (0x0E, 0x3E)
  | .hold _ _ _ => (0x10, 0x31)
  | .portAck _ _ _ => (0x11, 0x31)

/-- The word of a code that the opcode table numbers: `H = {B[0], B[1]}`, or `C`. -/
def tableWord : Code → Nat
  | .window (b0 :: b1 :: _) => b0.toNat * 256 + b1.toNat
  | .window _ => 0
  | .control c => c.toNat

/-- A well-formed instruction's encoding matches its row. -/
def Statement (i : Instr) : Prop := i.WellFormed → tableWord (encode i) &&& (matchMask i).2 = (matchMask i).1

/-- Byte 1 of a frame row keeps its type code under the row's mask. -/
theorem header_mask (code : BitVec 3) (rsv : BitVec 5) :
    (0xF9#8).toNat * 256 + (code ++ rsv).toNat &&& 0xFFE0 = 0xF900 + 32 * code.toNat := by
  revert code rsv
  decide

theorem ping (rsv : BitVec 5) (user : Byte) (t : Trailer) (tail : List Byte) : Statement (.ping rsv user t tail) :=
  fun _ => header_mask 0#3 rsv

theorem data (rsv : BitVec 5) (user : Byte) (words : List Byte) (t : Trailer) : Statement (.data rsv user words t) :=
  fun _ => header_mask 1#3 rsv

theorem frameAck (rsv : BitVec 5) (user : Byte) (words : List Byte) (t : Trailer) : Statement (.frameAck rsv user words t) :=
  fun _ => header_mask 2#3 rsv

theorem nak (rsv : BitVec 5) (user : Byte) (words : List Byte) (t : Trailer) : Statement (.nak rsv user words t) :=
  fun _ => header_mask 3#3 rsv

theorem unknown (raw : BitVec 3) (rsv : BitVec 5) (user : Byte) (words : List Byte) (t : Trailer) :
    Statement (.unknown raw rsv user words t) := by
  intro h
  have key : ∀ (raw : BitVec 3) (rsv : BitVec 5), 4 ≤ raw.toNat →
      ((0xF9#8).toNat * 256 + (raw ++ rsv).toNat) &&& 0xFF80 = 0xF980 := by decide
  simp only [Instr.WellFormed, Instr.wf, Bool.and_eq_true, decide_eq_true_eq] at h
  exact key raw rsv h.1

theorem reset (d v k l a : Bool) : Statement (.reset d v k l a) := by revert d v k l a; unfold Statement; decide

theorem idle (k l a : Bool) : Statement (.idle k l a) := by revert k l a; unfold Statement; decide

theorem null (a : Bool) : Statement (.null a) := by revert a; unfold Statement; decide

theorem append (a : Bool) : Statement (.append a) := by revert a; unfold Statement; decide

theorem close (a : Bool) : Statement (.close a) := by revert a; unfold Statement; decide

theorem appendClose (a : Bool) : Statement (.appendClose a) := by revert a; unfold Statement; decide

theorem hold (v k l : Bool) : Statement (.hold v k l) := by revert v k l; unfold Statement; decide

theorem portAck (v k l : Bool) : Statement (.portAck v k l) := by revert v k l; unfold Statement; decide

end Sys2Proof.Laws.RowPattern
end

