-- ==== Sys2Proof/Tests/Slice0.lean ====
section
/-! SUPPORT. The model's own tests: well-formedness refusals, one decoding per constructor from words written out bit by bit from
spec/30_encoding.md, single steps and results with the values of spec/95_test_vectors.md (V, S and X are its vectors), and one
`witness_` theorem for each statement of Certificates that has hypotheses: concrete values that meet them. -/

namespace Sys2Proof.Tests

open Sys2Proof.Machine

/-! ### Well-formedness refuses each ill-formed term -/

/-- A right trailer: crc 7A, tag 1, EOF, POSTAMBLE, pad 0. -/
def goodTrailer : Trailer := { crc := 0x7A#8, tag := 1#4, eof := 0b0110#4, postamble := 0b1111#4, pad := 0#4 }

theorem test_wf_accepts_ping : (Instr.ping 0#5 0x42#8 goodTrailer []).wf = true := by decide

theorem test_wf_refuses_eof : (Instr.ping 0#5 0x42#8 { goodTrailer with eof := 0b0111#4 } []).wf = false := by decide

theorem test_wf_refuses_postamble : (Instr.data 0#5 0x42#8 [] { goodTrailer with postamble := 0b0111#4 }).wf = false := by decide

theorem test_wf_refuses_known_code : (Instr.unknown 0b011#3 0#5 0x42#8 [] goodTrailer).wf = false := by decide

theorem test_legal_refuses_known_code : (FrameType.unknown 0b011#3).legal = false := by decide

/-! ### Decoding: words written out from R41, R42 and R54 -/

theorem test_decode_ping :
    decode (.window [0b11111001#8, 0b00010101#8, 0x42#8, 0x7A#8, 0b00010110#8, 0b11110011#8, 0xAA#8])
      = .ok (.ping 0b10101#5 0x42#8 ⟨0x7A#8, 0b0001#4, 0b0110#4, 0b1111#4, 0b0011#4⟩ [0xAA#8]) := by decide

theorem test_decode_data :
    decode (.window [0b11111001#8, 0b00100000#8, 0x10#8, 0xDE#8, 0xAD#8, 0x55#8, 0b10100110#8, 0b11110000#8])
      = .ok (.data 0#5 0x10#8 [0xDE#8, 0xAD#8] ⟨0x55#8, 0b1010#4, 0b0110#4, 0b1111#4, 0b0000#4⟩) := by decide

theorem test_decode_frame_ack :
    decode (.window [0b11111001#8, 0b01000000#8, 0x00#8, 0x00#8, 0b00000110#8, 0b11110000#8])
      = .ok (.frameAck 0#5 0x00#8 [] ⟨0x00#8, 0b0000#4, 0b0110#4, 0b1111#4, 0b0000#4⟩) := by decide

theorem test_decode_nak :
    decode (.window [0b11111001#8, 0b01100000#8, 0xFF#8, 0x01#8, 0x99#8, 0b11110110#8, 0b11111111#8])
      = .ok (.nak 0#5 0xFF#8 [0x01#8] ⟨0x99#8, 0b1111#4, 0b0110#4, 0b1111#4, 0b1111#4⟩) := by decide

theorem test_decode_unknown :
    decode (.window [0b11111001#8, 0b10111111#8, 0x42#8, 0x7A#8, 0b00010110#8, 0b11110000#8])
      = .ok (.unknown 0b101#3 0b11111#5 0x42#8 [] ⟨0x7A#8, 0b0001#4, 0b0110#4, 0b1111#4, 0b0000#4⟩) := by decide

theorem test_decode_reset : decode (.control 0b101101#6) = .ok (.reset false true true false true) := by decide

theorem test_decode_idle : decode (.control 0b000110#6) = .ok (.idle true true false) := by decide

theorem test_decode_null : decode (.control 0b001001#6) = .ok (.null true) := by decide

theorem test_decode_append : decode (.control 0b001101#6) = .ok (.append true) := by decide

theorem test_decode_close : decode (.control 0b001010#6) = .ok (.close false) := by decide

theorem test_decode_append_close : decode (.control 0b001110#6) = .ok (.appendClose false) := by decide

theorem test_decode_hold : decode (.control 0b011100#6) = .ok (.hold true true false) := by decide

theorem test_decode_port_ack : decode (.control 0b011011#6) = .ok (.portAck true false true) := by decide

/-! ### The opcode table's words -/

/-- V16.4 and the table's rows: header words and control words numbered as spec/opcode_table.json numbers them. -/
theorem test_table_words :
    decodeTableWord 16 0xF900 = some (.ping 0#5 0#8 ⟨0#8, 0#4, 0#4, 0#4, 0#4⟩ []) ∧
    decodeTableWord 16 0xF945 = some (.frameAck 5#5 0#8 [] ⟨0#8, 0#4, 0#4, 0#4, 0#4⟩) ∧
    decodeTableWord 16 0xE900 = none ∧ decodeTableWord 8 0x1E = some (.hold true true true) ∧ decodeTableWord 8 0x40 = none := by
  decide

/-- `LW` of `MAXLEN = 16` is 5 (R6). -/
theorem test_len_width : lenWidth ⟨16, 16⟩ = 5 ∧ lenWidth ⟨8, 16⟩ = 4 ∧ lenWidth ⟨7, 16⟩ = 3 := by decide

/-! ### Windows of spec/95 -/

def v1 : List Byte := [0xF9#8, 0x00#8, 0x42#8, 0x7A#8, 0x16#8, 0xF0#8]
def v2 : List Byte := [0xE9#8, 0x00#8, 0x42#8, 0x7A#8, 0x16#8, 0xF0#8]
def v6 : List Byte := [0xF9#8, 0xA0#8, 0x42#8, 0x7A#8, 0x16#8, 0xF0#8]
def v7 : List Byte := [0xF9#8, 0x20#8, 0x10#8, 0xDE#8, 0xAD#8, 0x55#8, 0xA6#8, 0xF0#8]
def v8 : List Byte := [0xF9#8, 0x40#8, 0x00#8, 0x00#8, 0x06#8, 0xF0#8]
def v9 : List Byte := [0xF9#8, 0x60#8, 0xFF#8, 0x01#8, 0x99#8, 0xF6#8, 0xFF#8]
def v10 : List Byte := [0xF9#8, 0x00#8, 0x42#8, 0xAA#8, 0x26#8, 0xF0#8, 0x11#8, 0x36#8, 0xFF#8]
def v12b : List Byte := [0xF9#8, 0x20#8, 0x42#8, 0x7A#8, 0x16#8, 0xF0#8, 0x00#8, 0x06#8, 0x00#8]
def v13b : List Byte := [0xF8#8, 0x00#8, 0x42#8, 0x7A#8, 0x17#8, 0x00#8]
def v14 : List Byte := [0xF9#8, 0xFF#8, 0x01#8, 0x02#8, 0x03#8, 0x04#8, 0xC6#8, 0xFA#8]
def v19 : List Byte :=
  [0xF9#8, 0x3F#8, 0x80#8, 0x10#8, 0x11#8, 0x12#8, 0x13#8, 0x14#8, 0x15#8, 0x16#8, 0x17#8, 0x18#8, 0x19#8, 0xC3#8, 0x76#8, 0xF0#8]
def v26 : List Byte := [0xF9#8, 0x00#8, 0x10#8, 0xDE#8, 0xAD#8, 0x55#8, 0xA6#8, 0xF0#8]

def frameV1 : DecodedFrame Nat := ⟨.ping, 0x42#8, [], 0x7A#8, 0x01#8, 1, 2⟩
def frameV6 : DecodedFrame Nat := ⟨.unknown 5#3, 0x42#8, [], 0x7A#8, 0x01#8, 1, 2⟩
def frameV7 : DecodedFrame Nat := ⟨.data, 0x10#8, [0xDE#8, 0xAD#8], 0x55#8, 0x0A#8, 1, 2⟩

theorem test_decode_v1 : decodeWindow v1 1 2 = .ok (.ok frameV1) := by decide
theorem test_decode_v7 : decodeWindow v7 1 2 = .ok (.ok frameV7) := by decide
theorem test_decode_v6 : decodeWindow v6 1 2 = .ok (.ok frameV6) := by decide
theorem test_decode_v2 : decodeWindow v2 1 2 = .ok (.reject .badPreamble) := by decide
theorem test_decode_v3_5 : decodeWindow (v1.take 5) 1 2 = .ok (.reject .tooShort) := by decide
theorem test_decode_v13b : decodeWindow v13b 1 2 = .ok (.reject .badStartMarker) := by decide
theorem test_decode_v26 : decodeWindow v26 1 2 = .ok (.reject .badEndMarker) := by decide
theorem test_decode_v12b : decodeWindow v12b 1 2 = .ok (.reject .badPostamble) := by decide

/-! ### Single steps -/

/-- A block whose buffer holds `b`, with `LEN` its length. -/
def block (b : List Byte) (done ovf : Bool) : State :=
  { State.reset.loadWindow 0 b with len := b.length, done := done, ovf := ovf, ts := 0x1234, te := 0x5678 }

/-- The caller holds `i` on the ports in the coming cycle. -/
def State.driven (s : State) (i : Inputs) : State := { s with pending := [i] }

/-- The next state, if there is one. -/
def nextOf (o : Host.Outcome State Fault Refusal) : Option State :=
  match o with
  | .next t => some t
  | .fault _ => none
  | .refused _ => none

def beat (keep last : Bool) (v : Byte) (ts te : Nat) : Inputs :=
  { Inputs.zero with inValid := true, inKeep := keep, inLast := last, inData := v, inTs := ts, inTe := te }

def outReadyInput : Inputs := { Inputs.zero with outReady := true }
def resetInput : Inputs := { Inputs.zero with rst := true }
def fullBuffer (done ovf : Bool) : State := block v19 done ovf

/-- What a step leaves of the spec's own state but the cells: `DONE`, `LEN`, `OVF`, `TS`, `TE`. -/
def registersAfter (s : State) (i : Inputs) : Option (Bool × Nat × Bool × Nat × Nat) :=
  (nextOf (step (State.driven s i))).map fun t => (t.done, t.len, t.ovf, t.ts, t.te)

/-- A cell after a step. -/
def cellAfter (s : State) (i : Inputs) (c : Nat) : Option (Option Byte) := (nextOf (step (State.driven s i))).map fun t => t.w.read c

/-- The output ports that a step of HOLD shows for the index `rd`. -/
def shownBy (s : State) (rd : Nat) : Option Outputs :=
  (nextOf (step (State.driven s { Inputs.zero with rdIdx := rd }))).map State.seen

/-- S2: `rst` has priority and the beat is not accepted. -/
theorem test_step_reset :
    registersAfter (fullBuffer true true) { beat true true 0xAA#8 0 0 with rst := true, outReady := true }
      = some (false, 0, false, 0x1234, 0x5678) := by decide

/-- S3: `in_last` without `in_valid` does not close the window. -/
theorem test_step_idle :
    registersAfter (block (v1.take 3) false false) { Inputs.zero with inKeep := true, inLast := true, outReady := true }
      = some (false, 3, false, 0x1234, 0x5678) := by decide

/-- S4. -/
theorem test_step_null :
    registersAfter (block (v1.take 3) false false) (beat false false 0xEE#8 0 0) = some (false, 3, false, 0x1234, 0x5678) := by decide

/-- S5: the byte goes to cell 2. -/
theorem test_step_append :
    registersAfter (block (v1.take 2) false false) (beat true false 0x42#8 0 0) = some (false, 3, false, 0x1234, 0x5678) ∧
    cellAfter (block (v1.take 2) false false) (beat true false 0x42#8 0 0) 2 = some (some 0x42#8) := by decide

/-- S8: the `(MAXLEN+1)`-th byte is discarded. -/
theorem test_step_append_full :
    registersAfter (fullBuffer false false) (beat true false 0x77#8 0 0) = some (false, 16, true, 0x1234, 0x5678) ∧
    cellAfter (fullBuffer false false) (beat true false 0x77#8 0 0) 15 = some (some 0xF0#8) := by decide

/-- S10: the empty window. -/
theorem test_step_close :
    registersAfter (block [] false false) (beat false true 0#8 0x20 0x20) = some (true, 0, false, 0x20, 0x20) := by decide

/-- S12. -/
theorem test_step_append_close :
    registersAfter (block (v1.take 5) false false) (beat true true 0xF0#8 0x100 0x106) = some (true, 6, false, 0x100, 0x106) ∧
    cellAfter (block (v1.take 5) false false) (beat true true 0xF0#8 0x100 0x106) 5 = some (some 0xF0#8) := by decide

/-- S14: the closing byte itself overflows. -/
theorem test_step_append_close_full :
    registersAfter (fullBuffer false false) (beat true true 0xF0#8 1 2) = some (true, 16, true, 1, 2) := by decide

/-- S15: a beat offered in HOLD is ignored. -/
theorem test_step_hold :
    registersAfter (block v7 true false) (beat true true 0x55#8 0x7777 0x8888) = some (true, 8, false, 0x1234, 0x5678) := by decide

/-- S17: ACK clears `OVF`; the beat is not accepted. -/
theorem test_step_port_ack :
    registersAfter (fullBuffer true true) { beat true false 0xF9#8 0 0 with outReady := true }
      = some (false, 0, false, 0x1234, 0x5678) := by decide

/-- Section 3.3, window V1. -/
theorem test_shown_ping :
    shownBy (block v1 true false) 0 = some ⟨false, true, true, 0#3, 0#3, false, 0x42#8, 0, 0x7A#8, 0x01#8, 0x1234, 0x5678, 0#8⟩ := by
  decide

/-- Section 3.3, window V7, and section 3.4 at index 1. -/
theorem test_shown_data :
    shownBy (block v7 true false) 1 = some ⟨false, true, true, 0#3, 1#3, false, 0x10#8, 2, 0x55#8, 0x0A#8, 0x1234, 0x5678, 0xAD#8⟩ := by
  decide

/-- Section 3.4, window V7 at index 2: the crc byte is not shown. -/
theorem test_shown_data_past_words : (shownBy (block v7 true false) 2).map Outputs.rdWord = some 0x00#8 := by decide

/-- Section 3.3, window V8. -/
theorem test_shown_frame_ack :
    shownBy (block v8 true false) 0 = some ⟨false, true, true, 0#3, 2#3, false, 0#8, 0, 0#8, 0#8, 0x1234, 0x5678, 0#8⟩ := by decide

/-- Section 3.3, window V9. -/
theorem test_shown_nak :
    shownBy (block v9 true false) 0 = some ⟨false, true, true, 0#3, 3#3, false, 0xFF#8, 1, 0x99#8, 0x0F#8, 0x1234, 0x5678, 0x01#8⟩ := by
  decide

/-- Section 3.3, window V14. -/
theorem test_shown_unknown :
    shownBy (block v14 true false) 0 = some ⟨false, true, true, 0#3, 7#3, true, 0x01#8, 2, 0x04#8, 0x0C#8, 0x1234, 0x5678, 0x02#8⟩ := by
  decide

/-- Section 3.3, windows V26 and X1: the code and nothing else. -/
theorem test_shown_refused :
    shownBy (block v26 true false) 0 = some (Outputs.rejected 5#3) ∧ shownBy (fullBuffer true true) 0 = some Outputs.overflow := by
  decide

/-- From reset, a placed table word runs as the very next step: a Ping header with zero operand bytes is rejected for its trailer (R106),
an APPEND stores its byte (R89). -/
theorem test_fetch_word :
    (nextOf (step (State.reset.withFetchWord 16 0xF900))).map (fun t => t.seen) = some (Outputs.rejected 5#3) ∧
    (nextOf (step (State.reset.withFetchWord 8 0x0C))).map (fun t => (t.w, t.len)) = some ([(0, 0#8)], 1) := by decide

/-! ### Witnesses: functions -/

theorem witness_DecodeAfterEncode : 4 ≤ (4#3).toNat ∧ 4 ≤ (7#3).toNat := by decide

theorem witness_EncodeAfterDecode :
    decode (.window v9) = .ok (.nak 0#5 0xFF#8 [0x01#8] ⟨0x99#8, 0xF#4, 0x6#4, 0xF#4, 0xF#4⟩) ∧
    decode (.control 0x3F#6) = .ok (.reset true true true true true) := by decide

theorem witness_HeaderWordSelectsTheFrameRow : 4 ≤ (v1.drop 2).length ∧ 4 ≤ (v19.drop 2).length := by decide

theorem witness_FrameTypeCodesAreABijection :
    (FrameType.unknown 4#3).legal = true ∧ FrameType.nak.legal = true ∧ 4 ≤ (4#3).toNat := by decide

/-- The constructed frame of the second clause, with data words on a Ping, is accepted: its markers happen to be right. -/
theorem witness_RoundTripLaw :
    ((0#3 : BitVec 3) = 0#3 → ([] : List Byte) = []) ∧ ((1#3 : BitVec 3) = 0#3 → [0xDE#8, 0xAD#8] = []) ∧
    ([0x99#8] : List Byte) ≠ [] ∧
    decodeWindow (frameBytes 0#3 0#5 0x42#8 [0x99#8] 0x16#8 0xF#4 0#4) 1 2 =
      .ok (.ok ⟨.ping, 0x42#8, [], 0x99#8, 0x01#8, 1, 2⟩) := by decide

theorem witness_LengthDerivationLaw :
    decodeWindow v7 1 2 = .ok (.ok frameV7) ∧ v7[1]? = some 0x20#8 ∧ typeCode 0x20#8 ≠ 0#3 ∧
    decodeWindow v1 1 2 = .ok (.ok frameV1) ∧ v1[1]? = some 0x00#8 ∧ typeCode 0x00#8 = 0#3 := by decide

/-- V4.1, V4.8, V4.12, V4.16 and V5.5: the boundary bits of each clause. -/
theorem witness_MarkerSensitivity :
    decodeWindow v1 1 2 = .ok (.ok frameV1) ∧ flipBit v1 0 7 = v1.set 0 0x79#8 ∧ flipBit v1 0 0 = v1.set 0 0xF8#8 ∧
    flipBit v1 4 0 = v1.set 4 0x17#8 ∧ flipBit v1 5 4 = v1.set 5 0xE0#8 ∧ flipBit v1 1 4 = v1.set 1 0x10#8 := by decide

theorem witness_IgnoredBitsDoNotMatter :
    v7[1]? = some 0x20#8 ∧ typeCode 0x3F#8 = typeCode 0x20#8 ∧ dataWordCount (typeCode 0x20#8) v7.length = .ok 2 ∧
    v7[3 + 2 + 2]? = some 0xF0#8 ∧ hi 0xFF#8 = hi 0xF0#8 ∧
    v1[1]? = some 0x00#8 ∧ typeCode 0x00#8 = 0#3 ∧ (v1 ++ [0x00#8]).take 6 = v1.take 6 ∧ 6 ≤ v1.length := by decide

theorem witness_UnknownTypePassThrough :
    v6[1]? = some 0xA0#8 ∧ typeCode 0xA0#8 = 0b101#3 ∧ 6 ≤ v6.length ∧ v6[0]? = some 0xF9#8 ∧ v6[v6.length - 2]? = some 0x16#8 ∧
    lo 0x16#8 = 0x6#4 ∧ v6[v6.length - 1]? = some 0xF0#8 ∧ hi 0xF0#8 = 0xF#4 ∧
    decodeWindow v6 1 2 = .ok (.ok frameV6) ∧
    (v12b[1]? = some 0x20#8 ∧ typeCode 0x20#8 ≠ 0#3 ∧ decodeWindow v12b 1 2 = .ok (.reject .badPostamble)) := by decide

theorem witness_OpaqueFieldsAreCopied :
    decodeWindow v7 1 2 = .ok (.ok frameV7) ∧ 0 < frameV7.dataWords.length ∧ 1 < frameV7.dataWords.length := by decide

theorem witness_PingPrefixLaw : v10[1]? = some 0x00#8 ∧ typeCode 0x00#8 = 0#3 ∧ 6 ≤ v10.length ∧ 6 ≤ v1.length := by decide

theorem witness_TimingMarkerPassThrough :
    decodeWindow v7 1 2 = .ok (.ok frameV7) ∧ decodeWindow v2 1 2 = .ok (.reject .badPreamble) := by decide

theorem witness_EachRejectionHasItsCause :
    6 ≤ v1.length ∧ v1[0]? = some 0xF9#8 ∧ v1[1]? = some 0x00#8 ∧ v1[3 + 0 + 1]? = some 0x16#8 ∧ v1[3 + 0 + 2]? = some 0xF0#8 ∧
    6 ≤ v7.length ∧ v7[0]? = some 0xF9#8 ∧ v7[1]? = some 0x20#8 ∧ typeCode 0x20#8 ≠ 0#3 ∧
    v7[3 + (v7.length - 6) + 1]? = some 0xA6#8 ∧ v7[3 + (v7.length - 6) + 2]? = some 0xF0#8 := by decide

theorem witness_FrameTagUpperNibbleIsZero :
    decodeWindow v7 1 2 = .ok (.ok frameV7) ∧ v7[3 + frameV7.dataWords.length + 1]? = some 0xA6#8 := by decide

/-- The boundary lengths 5, 6 and `MAXLEN`. -/
theorem witness_LengthSubtractionDoesNotWrap :
    Config.vectorParams.valid = true ∧ 5 ≤ Config.vectorParams.maxLen ∧ 16 ≤ Config.vectorParams.maxLen ∧ (1#3 : BitVec 3) ≠ 0#3 ∧
    ((BitVec.ofNat 5 5).setWidth 6 - (6 : BitVec 6)).msb = true ∧ ((BitVec.ofNat 5 6).setWidth 6 - (6 : BitVec 6)).msb = false := by
  decide

theorem witness_LenWidthIsLeast :
    Config.vectorParams.valid = true ∧ Config.vectorParams.maxLen < 2 ^ 5 ∧ (Params.mk 6 1).valid = true := by decide

/-! ### Witnesses: instructions -/

/-- A presented window and the trailer values of each clause. -/
theorem witness_PingPresentsItsFrame :
    (block v1 true false).done = true ∧ (block v1 true false).ovf = false ∧ goodTrailer.eof = 0x6#4 ∧ goodTrailer.postamble = 0xF#4 ∧
    ({ goodTrailer with eof := 0x7#4 } : Trailer).eof ≠ 0x6#4 ∧ ({ goodTrailer with postamble := 0x7#4 } : Trailer).postamble ≠ 0xF#4 := by
  decide

theorem witness_FormatVRowsPresentTheirFrames :
    (block v7 true false).done = true ∧ (block v7 true false).ovf = false ∧ 4 ≤ (4#3).toNat ∧ 4 ≤ (7#3).toNat ∧
    goodTrailer.eof = 0x6#4 ∧ goodTrailer.postamble = 0xF#4 ∧ ({ goodTrailer with eof := 0x7#4 } : Trailer).eof ≠ 0x6#4 ∧
    ({ goodTrailer with postamble := 0x7#4 } : Trailer).postamble ≠ 0xF#4 := by decide

theorem witness_FrameRowsShowNothingOutsideAResult :
    (block v1 false false).done = false ∧ (fullBuffer true true).done = true ∧ (fullBuffer true true).ovf = true := by decide

/-- The last free cell and the full buffer. -/
theorem witness_AppendStoresOrOverflows :
    (block (v19.take 15) false false).len < (block (v19.take 15) false false).params.maxLen ∧
    (fullBuffer false false).params.maxLen ≤ (fullBuffer false false).len := by decide

theorem witness_AppendCloseIsAppendThenClose :
    (block (v19.take 15) false false).len < (block (v19.take 15) false false).params.maxLen ∧
    (fullBuffer false false).params.maxLen ≤ (fullBuffer false false).len := by decide

theorem witness_OnlyTheCellAtLenIsStored :
    (nextOf (exec (.append false) (block (v19.take 15) false false))).isSome = true ∧ (block (v19.take 15) false false).len < 16 ∧
    (nextOf (exec (.append false) (fullBuffer false false))).isSome = true ∧ 16 ≤ (fullBuffer false false).len ∧
    (nextOf (exec (.close false) (block v1 false false))).isSome = true ∧
    (∀ a, Instr.close false ≠ .append a ∧ Instr.close false ≠ .appendClose a) := by decide

/-- Each register moves somewhere. -/
theorem witness_OnlyTheNamedOperationsWriteEachRegister :
    (nextOf (exec (.close false) (block v1 false false))).map (fun t => (t.done, t.ts)) = some (true, 0) ∧
    (nextOf (exec (.portAck false false false) (fullBuffer true true))).map (fun t => (t.done, t.len, t.ovf)) = some (false, 0, false) ∧
    (nextOf (exec (.append false) (fullBuffer false false))).map State.ovf = some true ∧
    (nextOf (exec (.append false) (block v1 false false))).map State.len = some 7 := by decide

/-! ### Witnesses: the step -/

theorem witness_FrameRowsComputeDecode :
    (block v7 true false).done = true ∧ (block v7 true false).ovf = false ∧
    decodeFrame v7 = .ok (.data 0#5 0x10#8 [0xDE#8, 0xAD#8] ⟨0x55#8, 0xA#4, 0x6#4, 0xF#4, 0#4⟩) ∧
    decodeFrame v2 = .error .badPreamble := by decide

theorem witness_StepRunsThePortOperation :
    (block v1 false false).done = false ∧ ((fullBuffer true true).done = true ∧ (fullBuffer true true).ovf = true) ∧
    ((block v2 true false).done = true ∧ (block v2 true false).ovf = false ∧ (block v2 true false).window = .ok v2 ∧
      decodeFrame v2 = .error .badPreamble) := by decide

theorem witness_StepRunsTheDecodedFrameRow :
    (block v7 true false).done = true ∧ (block v7 true false).ovf = false ∧ (block v7 true false).window = .ok v7 ∧
    decodeFrame v7 = .ok (.data 0#5 0x10#8 [0xDE#8, 0xAD#8] ⟨0x55#8, 0xA#4, 0x6#4, 0xF#4, 0#4⟩) := by decide

theorem witness_StepShowsTheOutputFunction : (nextOf (step (State.driven (block v7 true false) Inputs.zero))).isSome = true := by decide

/-- The block presenting V7 satisfies the invariant, and takes a step. -/
theorem witness_StepKeepsTheInvariant :
    (State.driven (block v7 true false) outReadyInput).Inv ∧
    (nextOf (step (State.driven (block v7 true false) outReadyInput))).isSome = true := by
  refine ⟨⟨by decide, by decide, by decide, by decide, by decide, ?_, by decide, by decide⟩, by decide⟩
  have h : ∀ i, i < 8 → ((block v7 true false).w.read i).isSome = true := by decide
  exact h

/-- `LEN` at both ends of its range. -/
theorem witness_StepNeverStops :
    (fullBuffer true false).len ≤ (fullBuffer true false).params.maxLen ∧ State.reset.len ≤ State.reset.params.maxLen := by decide

/-- A window of `n` bytes with an idle cycle, a null beat and cycles of HOLD. -/
def transaction (n : Nat) : Transaction where
  before := Inputs.zero :: beat false false 0xEE#8 7 7 :: List.replicate n (beat true false 0x00#8 9 9)
  closing := beat false true 0#8 1 2
  after := [Inputs.zero, beat true true 0x55#8 3 4]

/-- An empty block with stale contents, about to receive a transaction. -/
def waiting (n : Nat) : State := { block v7 false false with len := 0, pending := (transaction n).script }

/-- Windows of `MAXLEN` and of `MAXLEN + 1` bytes. -/
theorem witness_TransactionRefinesDecode :
    ((waiting 16).Empty ∧ (waiting 16).pending = (transaction 16).script ++ [] ∧ (transaction 16).wf (waiting 16).params = true ∧
      (transaction 16).bytes.length ≤ (waiting 16).params.maxLen) ∧
    ((waiting 17).Empty ∧ (waiting 17).pending = (transaction 17).script ++ [] ∧ (transaction 17).wf (waiting 17).params = true ∧
      (waiting 17).params.maxLen < (transaction 17).bytes.length) := by
  refine ⟨⟨⟨by decide, by decide, by decide⟩, by decide, by decide, by decide⟩,
    ⟨by decide, by decide, by decide⟩, by decide, by decide, by decide⟩

/-- The same empty window by a CLOSE alone and by a longer script on a stale buffer. -/
theorem witness_WindowsAreIsolated :
    let x : Transaction := ⟨[], beat false true 0xAB#8 1 2, []⟩
    let s : State := { State.reset with pending := x.script }
    s.Empty ∧ (waiting 0).Empty ∧ s.params = (waiting 0).params ∧ s.pending = x.script ++ [] ∧
    (waiting 0).pending = (transaction 0).script ++ [] ∧ x.wf s.params = true ∧ (transaction 0).wf (waiting 0).params = true ∧
    x.bytes = (transaction 0).bytes ∧ x.closing.inTs = (transaction 0).closing.inTs ∧ x.closing.inTe = (transaction 0).closing.inTe ∧
    nextOf (core.run x.script.length s) ≠ none ∧ nextOf (core.run (transaction 0).script.length (waiting 0)) ≠ none := by
  refine ⟨⟨by decide, by decide, by decide⟩, ⟨by decide, by decide, by decide⟩, ?_⟩
  decide

/-- One byte below, at and above the capacity. -/
theorem witness_CollectKeepsTheBytesInOrder :
    (waiting 17).Empty ∧ (waiting 17).pending = (transaction 17).before ++ (transaction 17).closing :: (transaction 17).after ∧
    (transaction 17).before.all keepsOpen = true ∧ (15 < 16 ∧ (bytesDelivered (transaction 17).before)[15]? = some 0x00#8) := by
  refine ⟨⟨by decide, by decide, by decide⟩, by decide, by decide, by decide⟩

theorem witness_HoldKeepsTheResult :
    let s := State.driven (block v7 true false) (beat true true 0x55#8 3 4)
    s.len ≤ s.params.maxLen ∧ s.done = true ∧ holdsResult s.nextPorts = true := by decide

theorem witness_EveryPhaseIsLeftInOneStep :
    (fullBuffer true true).len ≤ (fullBuffer true true).params.maxLen ∧
    (State.driven (fullBuffer true true) resetInput).nextPorts.rst = true ∧
    ((State.driven (fullBuffer true true) outReadyInput).nextPorts.rst = false ∧ (fullBuffer true true).done = true ∧
      (State.driven (fullBuffer true true) outReadyInput).nextPorts.outReady = true) ∧
    ((block v1 false false).done = false ∧
      closesWindow (State.driven (block v1 false false) (beat false true 0#8 1 2)).nextPorts = true) := by decide

/-- Port values that differ only where they carry no meaning: in HOLD the whole beat, in COLLECT the data of a CLOSE and `out_ready`. -/
theorem witness_IgnoredPortsDoNotMatter :
    ((nextOf (step { block v7 true false with pending := [beat true true 0x55#8 3 4] })).isSome = true ∧
      (nextOf (step { block v7 true false with pending := [Inputs.zero] })).isSome = true ∧
      (beat true true 0x55#8 3 4).rst = Inputs.zero.rst ∧ (beat true true 0x55#8 3 4).outReady = Inputs.zero.outReady) ∧
    (let p := beat false true 0x55#8 3 4
     let q := { beat false true 0xAA#8 3 4 with outReady := true }
     (nextOf (step { block v7 false false with pending := [p] })).isSome = true ∧
      (nextOf (step { block v7 false false with pending := [q] })).isSome = true ∧ p.rst = q.rst ∧ p.inValid = q.inValid ∧
      p.inKeep = q.inKeep ∧ p.inLast = q.inLast ∧ (p.inKeep = true → p.inData = q.inData) ∧ p.inTs = q.inTs ∧ p.inTe = q.inTe) := by
  decide

/-! ### Witnesses: the output ports -/

/-- Two states that differ in a cell past `LEN`, and two in COLLECT that differ in the markers. -/
theorem witness_HiddenStateIsUnobservable :
    (let s : State := { block v7 true false with len := 6 }
     let s' : State := { s with w := s.w.write 7 0x00#8 }
     s ≠ s' ∧ s.params = s'.params ∧ s.len = s'.len ∧ s.ovf = s'.ovf ∧ s.done = s'.done ∧
      (∀ i, i < s.len → s.cell i = s'.cell i) ∧ (s.done = true → s.ts = s'.ts ∧ s.te = s'.te)) ∧
    (let s : State := block v7 false false
     let s' : State := { s with ts := 0, te := 0 }
     s ≠ s' ∧ (∀ i, i < s.len → s.cell i = s'.cell i) ∧ (s.done = true → s.ts = s'.ts ∧ s.te = s'.te)) := by decide

theorem witness_ErrorCodesOnThePort :
    (block v2 true false).outputs 0 = .ok (Outputs.rejected 3#3) ∧ (block v2 true false).done = true ∧
    (block v2 true false).ovf = false ∧ (block v2 true false).window = .ok v2 := by decide

theorem witness_NoPartialOutput :
    (block v26 true false).outputs 0 = .ok (Outputs.rejected 5#3) ∧ (Outputs.rejected 5#3).outOk = false ∧
    (block v26 false false).outputs 0 = .ok Outputs.collecting ∧ Outputs.collecting.outOk = false := by decide

/-- The last word of V7 and the first index past it. -/
theorem witness_WordReadPort :
    let o (v : Byte) : Outputs := ⟨false, true, true, 0#3, 1#3, false, 0x10#8, 2, 0x55#8, 0x0A#8, 0x1234, 0x5678, v⟩
    (block v7 true false).outputs 1 = .ok (o 0xAD#8) ∧ (block v7 true false).outputs 2 = .ok (o 0x00#8) ∧
    (block v7 true false).done = true ∧ (block v7 true false).ovf = false ∧ (block v7 true false).window = .ok v7 ∧
    decodeWindow v7 (block v7 true false).ts (block v7 true false).te = .ok (.ok { frameV7 with startTime := 0x1234, endTime := 0x5678 }) ∧
    (block v2 true false).outputs 0 = .ok (Outputs.rejected 3#3) ∧ (Outputs.rejected 3#3).outOk = false := by decide

theorem witness_OutputsStayInRange :
    ((block v19 true false).outputs 9).toOption.isSome = true ∧ (block v19 true false).ts < 2 ^ (block v19 true false).params.tw ∧
    (block v19 true false).te < 2 ^ (block v19 true false).params.tw := by decide

theorem witness_OverflowOutranksTheWindow : (fullBuffer true true).done = true ∧ (fullBuffer true true).ovf = true := by decide

/-- `LEN` at `MAXLEN` and one past it. -/
theorem witness_StepStopsOnlyPastTheBuffer :
    (let s : State := { fullBuffer true false with len := 17 }
     s.done = true ∧ s.ovf = false ∧ s.params.maxLen < s.len) ∧
    (fullBuffer true false).len ≤ (fullBuffer true false).params.maxLen := by decide

end Sys2Proof.Tests
end

section
/-! PROOFS. The statements about the state after a RESET (spec/10_state.md rule R26). -/

namespace Sys2Proof.Machine

/-- RESET is the dismissal of the window, whatever its don't-care bits (R86). -/
@[simp] theorem exec_reset (d v k l a : Bool) (s : State) : exec (.reset d v k l a) s = .next s.clearWindow := rfl

/-- A cleared window is COLLECT, so every output but `in_ready` is 0 (R23, R26). -/
@[simp] theorem State.outputs_clearWindow (s : State) (rd : Nat) : s.clearWindow.outputs rd = .ok Outputs.collecting :=
  State.outputs_collect s.clearWindow_done rd

/-- Settles O29: RESET is `State.clearWindow`, which leaves `DONE` at 0, and outside HOLD the output function is the empty
record. -/
theorem resetLeavesCollect : Obligations.ResetLeavesCollect := by
  unfold Obligations.ResetLeavesCollect
  refine ⟨fun d v k l a s => ⟨?completes, ?outputs⟩, rfl, rfl, rfl, ?atReset⟩
  case completes => exact exec_reset d v k l a s
  case outputs => exact s.outputs_clearWindow
  case atReset => exact State.outputs_collect rfl

end Sys2Proof.Machine
end

section
/-! PROOFS. The statements about the encoding of the frame fields (spec/30_encoding.md rule R45). -/

namespace Sys2Proof.Machine

/-- The frame tag is delivered in 8 bits whose upper four are 0 (R45). -/
theorem frameTagOf_eq_append (tag : Nibble) : frameTagOf tag = 0b0000#4 ++ tag := by
  revert tag
  decide

/-- Zero extension keeps the nibble's value, so the delivered tag is 0 to 15 (R45). -/
theorem frameTagOf_toNat_lt (tag : Nibble) : (frameTagOf tag).toNat < 16 := by
  have htag : tag.toNat < 16 := tag.isLt
  rwa [frameTagOf, BitVec.toNat_setWidth_of_le (by decide)]

/-- The result is a frame exactly when no marker is wrong, and then it is the frame assembled from the window. -/
theorem resultOfVerdict_eq_ok {T : Type} {v : Option DecodeError} {f g : DecodedFrame T} :
    resultOfVerdict v f = .ok g ↔ v = none ∧ f = g := by
  cases v with
  | none => simp
  | some e => simp

/-- What an accepted window is: its parts of R39, right markers, and the frame that R59 step 5 assembles from the parts. -/
theorem exists_parts_of_decodeWindow_ok {T : Type} {b : List Byte} {ts te : T} {f : DecodedFrame T}
    (h : decodeWindow b ts te = .ok (.ok f)) :
    ∃ b0 b1 user words crc tagEof post tail,
      b = b0 :: b1 :: user :: (words ++ crc :: tagEof :: post :: tail) ∧
      dataWordCount (typeCode b1) (words.length + tail.length + 6) = .ok words.length ∧
      markerVerdict b0 tagEof post = none ∧ f = frameOfParts b1 user words crc tagEof ts te := by
  rcases decodeWindow_cases b ts te with
    ⟨_, hshort⟩ | ⟨_, b0, b1, user, words, crc, tagEof, post, tail, hb, hn, _, _, hparts⟩
  · rw [hshort] at h
    cases h
  · rw [hparts] at h
    obtain ⟨hv, hf⟩ := resultOfVerdict_eq_ok.mp (Except.ok.inj h)
    exact ⟨b0, b1, user, words, crc, tagEof, post, tail, hb, hn, hv, hf.symm⟩

/-- The tag byte of a window in its parts stands at offset `HDR_LEN + N + 1` (R44). -/
theorem getElem?_tagByte (b0 b1 user : Byte) (words : List Byte) (crc tagEof post : Byte) (tail : List Byte) :
    (b0 :: b1 :: user :: (words ++ crc :: tagEof :: post :: tail))[3 + words.length + 1]? = some tagEof := by
  have hoffset : 3 + words.length + 1 = words.length + 4 := by omega
  simp [hoffset]

/-- Settles O23: an accepted window is split into its parts, so the byte at `3 + N + 1` is the one whose high nibble the assembled
frame zero-extends. -/
theorem frameTagUpperNibbleIsZero : Obligations.FrameTagUpperNibbleIsZero := by
  unfold Obligations.FrameTagUpperNibbleIsZero
  intro T b ts te f tagEof hok htag
  obtain ⟨b0, b1, user, words, crc, tagByte, post, tail, rfl, _, _, rfl⟩ := exists_parts_of_decodeWindow_ok hok
  have hsame : tagByte = tagEof := Option.some.inj ((getElem?_tagByte b0 b1 user words crc tagByte post tail).symm.trans htag)
  subst hsame
  exact ⟨frameTagOf_eq_append (hi tagByte), frameTagOf_toNat_lt (hi tagByte)⟩

end Sys2Proof.Machine
end

section
/-! PROOFS. A window of at least six bytes as the record of its parts (spec/30_encoding.md rule R39), what `decode` answers for it, and
what replacing one byte of the window does to its parts. -/

namespace Sys2Proof.Machine

/-- The parts of a window that is long enough for its type. `words` are as many as R62 says; `tail` is what stands after the frame. -/
structure WindowParts where
  b0 : Byte
  b1 : Byte
  user : Byte
  words : List Byte
  crc : Byte
  tagEof : Byte
  post : Byte
  tail : List Byte
  counted : dataWordCount (typeCode b1) (words.length + tail.length + 6) = .ok words.length

namespace WindowParts

/-- The window of the parts. -/
def bytes (p : WindowParts) : List Byte := p.b0 :: p.b1 :: p.user :: (p.words ++ p.crc :: p.tagEof :: p.post :: p.tail)

/-- The verdict on the window's four markers. -/
def verdict (p : WindowParts) : Option DecodeError := markerVerdict p.b0 p.tagEof p.post

/-- The frame that R59 step 5 assembles from the parts. -/
def frame {T : Type} (p : WindowParts) (ts te : T) : DecodedFrame T := frameOfParts p.b1 p.user p.words p.crc p.tagEof ts te

@[simp] theorem frame_dataWords {T : Type} (p : WindowParts) (ts te : T) : (p.frame ts te).dataWords = p.words := rfl

@[simp] theorem bytes_length (p : WindowParts) : p.bytes.length = p.words.length + p.tail.length + 6 := by
  simp only [bytes, List.length_cons, List.length_append]
  omega

/-- `decode` of a window in parts: the first wrong marker, or the frame. -/
theorem decodeWindow_bytes {T : Type} (p : WindowParts) (ts te : T) :
    decodeWindow p.bytes ts te = .ok (resultOfVerdict p.verdict (p.frame ts te)) :=
  decodeWindow_parts _ _ _ _ _ _ _ _ p.counted ts te

/-- A window is too short, or it has parts. -/
theorem short_or_bytes (b : List Byte) : b.length < 6 ∨ ∃ p : WindowParts, b = p.bytes := by
  rcases Nat.lt_or_ge b.length 6 with hshort | hlong
  · exact .inl hshort
  · obtain ⟨b0, b1, user, words, crc, tagEof, post, tail, hb, hn, _, _⟩ := exists_window_fields hlong
    exact .inr ⟨⟨b0, b1, user, words, crc, tagEof, post, tail, hn⟩, hb⟩

/-- An accepted window has parts with right markers, and its frame is the one of the parts. -/
theorem exists_of_accepted {T : Type} {b : List Byte} {ts te : T} {f : DecodedFrame T} (h : decodeWindow b ts te = .ok (.ok f)) :
    ∃ p : WindowParts, b = p.bytes ∧ p.verdict = none ∧ f = p.frame ts te := by
  obtain ⟨b0, b1, user, words, crc, tagEof, post, tail, hb, hn, hv, hf⟩ := exists_parts_of_decodeWindow_ok h
  exact ⟨⟨b0, b1, user, words, crc, tagEof, post, tail, hn⟩, hb, hv, hf⟩

/-- A window in parts with right markers is accepted. -/
theorem decodeWindow_bytes_of_verdict_none {T : Type} {p : WindowParts} (h : p.verdict = none) (ts te : T) :
    decodeWindow p.bytes ts te = .ok (.ok (p.frame ts te)) := by
  rw [decodeWindow_bytes, h, resultOfVerdict_none]

/-- A window in parts has a rejection as its result exactly when that is the verdict on its markers. -/
theorem decodeWindow_bytes_eq_reject {T : Type} {p : WindowParts} {e : DecodeError} {ts te : T} :
    decodeWindow p.bytes ts te = .ok (.reject e) ↔ p.verdict = some e := by
  rw [decodeWindow_bytes]
  cases p.verdict with
  | none => simp
  | some e' => simp

/-! ### How many parts there are -/

/-- A Ping has no data words (R62). -/
theorem words_of_ping (p : WindowParts) (h : typeCode p.b1 = 0#3) : p.words = [] := by
  have hn := p.counted
  rw [h, dataWordCount_ping] at hn
  exact List.eq_nil_of_length_eq_zero (Except.ok.inj hn).symm

/-- Only a Ping has a tail (R40). -/
theorem tail_of_not_ping (p : WindowParts) (h : typeCode p.b1 ≠ 0#3) : p.tail = [] := by
  have hn := p.counted
  rw [dataWordCount_of_le h (by omega)] at hn
  have hlength := Except.ok.inj hn
  exact List.eq_nil_of_length_eq_zero (by omega)

/-! ### The bytes by offset -/

/-- The bytes from offset `HDR_LEN + N` on are the trailer's (R44). -/
theorem getElem?_trailer (p : WindowParts) (j : Nat) :
    p.bytes[3 + p.words.length + j]? = (p.crc :: p.tagEof :: p.post :: p.tail)[j]? := by
  have hoffset : 3 + p.words.length + j = p.words.length + j + 3 := by omega
  simp [bytes, hoffset, List.getElem?_append_right]

theorem getElem?_tagEof (p : WindowParts) : p.bytes[3 + p.words.length + 1]? = some p.tagEof := p.getElem?_trailer 1
theorem getElem?_post (p : WindowParts) : p.bytes[3 + p.words.length + 2]? = some p.post := p.getElem?_trailer 2

/-- Replacing a byte from offset `HDR_LEN + N` on replaces it in the trailer. -/
theorem set_trailer (p : WindowParts) (j : Nat) (v : Byte) :
    p.bytes.set (3 + p.words.length + j) v =
      p.b0 :: p.b1 :: p.user :: (p.words ++ (p.crc :: p.tagEof :: p.post :: p.tail).set j v) := by
  have hoffset : 3 + p.words.length + j = p.words.length + j + 3 := by omega
  simp [bytes, hoffset]

theorem set_b0 (p : WindowParts) (v : Byte) : p.bytes.set 0 v = { p with b0 := v }.bytes := rfl
theorem set_user (p : WindowParts) (v : Byte) : p.bytes.set 2 v = { p with user := v }.bytes := rfl
theorem set_crc (p : WindowParts) (v : Byte) : p.bytes.set (3 + p.words.length) v = { p with crc := v }.bytes :=
  p.set_trailer 0 v
theorem set_tagEof (p : WindowParts) (v : Byte) : p.bytes.set (3 + p.words.length + 1) v = { p with tagEof := v }.bytes :=
  p.set_trailer 1 v
theorem set_post (p : WindowParts) (v : Byte) : p.bytes.set (3 + p.words.length + 2) v = { p with post := v }.bytes :=
  p.set_trailer 2 v

/-- The parts with data word `k` replaced. -/
def setWord (p : WindowParts) (k : Nat) (v : Byte) : WindowParts :=
  { p with words := p.words.set k v, counted := by simpa only [List.length_set] using p.counted }

theorem set_word (p : WindowParts) {k : Nat} (hk : k < p.words.length) (v : Byte) :
    p.bytes.set (3 + k) v = (p.setWord k v).bytes := by
  have hoffset : 3 + k = k + 3 := by omega
  simp [bytes, setWord, hoffset, hk]

/-- The parts with byte 1 replaced by one that counts as many data words. -/
def setTypeByte (p : WindowParts) (v : Byte)
    (h : ∀ len, dataWordCount (typeCode v) len = dataWordCount (typeCode p.b1) len) : WindowParts :=
  { p with b1 := v, counted := (h _).trans p.counted }

theorem set_typeByte (p : WindowParts) (v : Byte)
    (h : ∀ len, dataWordCount (typeCode v) len = dataWordCount (typeCode p.b1) len) :
    p.bytes.set 1 v = (p.setTypeByte v h).bytes := rfl

/-- The first six bytes of a Ping: the same parts without the tail. -/
def firstSix (p : WindowParts) (h : typeCode p.b1 = 0#3) : WindowParts :=
  { p with words := [], tail := [], counted := by rw [h]; exact dataWordCount_ping _ }

theorem take_six (p : WindowParts) (h : typeCode p.b1 = 0#3) : p.bytes.take 6 = (p.firstSix h).bytes := by
  simp [bytes, firstSix, p.words_of_ping h]

end WindowParts

/-- The number of data words does not depend on which of the non-zero type codes a window has (R62). -/
theorem dataWordCount_congr {c d : BitVec 3} (hc : c ≠ 0#3) (hd : d ≠ 0#3) (len : Nat) :
    dataWordCount c len = dataWordCount d len := by
  rcases Nat.lt_or_ge len 6 with hlen | hlen
  · rw [dataWordCount_of_lt hc hlen, dataWordCount_of_lt hd hlen]
  · rw [dataWordCount_of_le hc hlen, dataWordCount_of_le hd hlen]

end Sys2Proof.Machine
end

section
/-! PROOFS. The verdict on the markers, one equation per branch (spec/40_frame_decode.md rule R64), and what flipping one bit of a byte
does to its fields. -/

namespace Sys2Proof.Machine

theorem markerVerdict_badPreamble {b0 : Byte} (h0 : hi b0 ≠ 0xF#4) (tagEof post : Byte) :
    markerVerdict b0 tagEof post = some .badPreamble := by
  rw [markerVerdict, if_pos h0]

theorem markerVerdict_badStartMarker {b0 : Byte} (h0 : hi b0 = 0xF#4) (h1 : lo b0 ≠ 0x9#4) (tagEof post : Byte) :
    markerVerdict b0 tagEof post = some .badStartMarker := by
  rw [markerVerdict, if_neg (not_not_intro h0), if_pos h1]

theorem markerVerdict_badEndMarker {b0 tagEof : Byte} (h0 : hi b0 = 0xF#4) (h1 : lo b0 = 0x9#4) (h2 : lo tagEof ≠ 0x6#4)
    (post : Byte) : markerVerdict b0 tagEof post = some .badEndMarker := by
  rw [markerVerdict, if_neg (not_not_intro h0), if_neg (not_not_intro h1), if_pos h2]

theorem markerVerdict_badPostamble {b0 tagEof post : Byte} (h0 : hi b0 = 0xF#4) (h1 : lo b0 = 0x9#4) (h2 : lo tagEof = 0x6#4)
    (h3 : hi post ≠ 0xF#4) : markerVerdict b0 tagEof post = some .badPostamble := by
  rw [markerVerdict, if_neg (not_not_intro h0), if_neg (not_not_intro h1), if_neg (not_not_intro h2), if_pos h3]

/-- The markers never answer one of the two rejections of the length checks. -/
theorem markerVerdict_ne_lengthError (b0 tagEof post : Byte) :
    markerVerdict b0 tagEof post ≠ some .tooShort ∧ markerVerdict b0 tagEof post ≠ some .negativeDataLength := by
  unfold markerVerdict
  split_ifs <;> simp

/-- The verdict reads the two nibbles of byte 0, the low one of the tag byte and the high one of the postamble byte. -/
theorem markerVerdict_congr {b0 tagEof tagEof' post post' : Byte} (ht : lo tagEof' = lo tagEof) (hp : hi post' = hi post) :
    markerVerdict b0 tagEof' post' = markerVerdict b0 tagEof post := by
  rw [markerVerdict, markerVerdict, ht, hp]

theorem hi_xor (a b : Byte) : hi (a ^^^ b) = hi a ^^^ hi b := BitVec.extractLsb'_xor
theorem lo_xor (a b : Byte) : lo (a ^^^ b) = lo a ^^^ lo b := BitVec.extractLsb'_xor
theorem typeCode_xor (a b : Byte) : typeCode (a ^^^ b) = typeCode a ^^^ typeCode b := BitVec.extractLsb'_xor

theorem hi_flip_ne {b : Byte} {m : Nibble} (hb : hi b = m) {k : Nat} (h4 : 4 ≤ k) (h8 : k < 8) : hi (b ^^^ (1#8 <<< k)) ≠ m := by
  have hmask : hi (1#8 <<< k) ≠ 0#4 := by interval_cases k <;> decide
  rw [hi_xor, hb]
  simpa using hmask

theorem hi_flip_low (b : Byte) {k : Nat} (h4 : k < 4) : hi (b ^^^ (1#8 <<< k)) = hi b := by
  have hmask : hi (1#8 <<< k) = 0#4 := by interval_cases k <;> decide
  rw [hi_xor, hmask, BitVec.xor_zero]

theorem lo_flip_ne {b : Byte} {m : Nibble} (hb : lo b = m) {k : Nat} (h4 : k < 4) : lo (b ^^^ (1#8 <<< k)) ≠ m := by
  have hmask : lo (1#8 <<< k) ≠ 0#4 := by interval_cases k <;> decide
  rw [lo_xor, hb]
  simpa using hmask

theorem typeCode_flip_reserved (b : Byte) {k : Nat} (h5 : k < 5) : typeCode (b ^^^ (1#8 <<< k)) = typeCode b := by
  have hmask : typeCode (1#8 <<< k) = 0#3 := by interval_cases k <;> decide
  rw [typeCode_xor, hmask, BitVec.xor_zero]

/-- Flipping a bit of a byte of the window replaces that byte. -/
theorem flipBit_eq_set {b : List Byte} {i : Nat} {v : Byte} (h : b[i]? = some v) (k : Nat) :
    flipBit b i k = b.set i (v ^^^ (1#8 <<< k)) := by
  rw [flipBit, List.modify_eq_set_getElem?, h]
  rfl

namespace WindowParts

theorem flipBit_b0 (p : WindowParts) (k : Nat) : flipBit p.bytes 0 k = { p with b0 := p.b0 ^^^ (1#8 <<< k) }.bytes :=
  (flipBit_eq_set (v := p.b0) rfl k).trans (p.set_b0 _)

theorem flipBit_tagEof (p : WindowParts) (k : Nat) :
    flipBit p.bytes (3 + p.words.length + 1) k = { p with tagEof := p.tagEof ^^^ (1#8 <<< k) }.bytes :=
  (flipBit_eq_set p.getElem?_tagEof k).trans (p.set_tagEof _)

theorem flipBit_post (p : WindowParts) (k : Nat) :
    flipBit p.bytes (3 + p.words.length + 2) k = { p with post := p.post ^^^ (1#8 <<< k) }.bytes :=
  (flipBit_eq_set p.getElem?_post k).trans (p.set_post _)

end WindowParts

end Sys2Proof.Machine
end

section
/-! PROOFS. The round-trip law (spec/40_frame_decode.md rule R74). -/

namespace Sys2Proof.Machine

/-! The constructor's arithmetic of R56 as fields side by side. -/

theorem ofNat_typeByte (code : BitVec 3) (rsv : BitVec 5) : BitVec.ofNat 8 (code.toNat * 32 + rsv.toNat) = code ++ rsv := by
  revert code rsv
  decide

theorem ofNat_tagByte (tag : Nibble) : BitVec.ofNat 8 (tag.toNat * 16 + 0x6) = tag ++ 0x6#4 := by
  revert tag
  decide

theorem ofNat_postambleByte (pad : Nibble) : BitVec.ofNat 8 (0xF0 + pad.toNat) = 0xF#4 ++ pad := by
  revert pad
  decide

/-- The constructed frame as its fields. -/
theorem frameBytes_eq (code : BitVec 3) (rsv : BitVec 5) (user : Byte) (words : List Byte) (crc : Byte) (tag pad : Nibble) :
    frameBytes code rsv user words crc tag pad =
      0xF9#8 :: (code ++ rsv) :: user :: (words ++ [crc, tag ++ 0x6#4, 0xF#4 ++ pad]) := by
  rw [frameBytes, ofNat_typeByte, ofNat_tagByte, ofNat_postambleByte]
  rfl

/-- The parts of a constructed frame: the fields it was made from, and no tail. -/
def WindowParts.ofFields (code : BitVec 3) (rsv : BitVec 5) (user : Byte) (words : List Byte) (crc : Byte) (tag pad : Nibble)
    (hping : code = 0#3 → words = []) : WindowParts where
  b0 := 0xF9#8
  b1 := code ++ rsv
  user := user
  words := words
  crc := crc
  tagEof := tag ++ 0x6#4
  post := 0xF#4 ++ pad
  tail := []
  counted := by
    rw [typeCode_append]
    by_cases hc : code = 0#3
    · rw [hc, hping hc]
      rfl
    · rw [dataWordCount_of_le hc (by omega)]
      rfl

/-- A constructed frame has right markers. -/
theorem WindowParts.verdict_ofFields (code : BitVec 3) (rsv : BitVec 5) (user : Byte) (words : List Byte) (crc : Byte)
    (tag pad : Nibble) (hping : code = 0#3 → words = []) : (ofFields code rsv user words crc tag pad hping).verdict = none :=
  markerVerdict_eq_none.mpr ⟨show hi 0xF9#8 = 0xF#4 by decide, show lo 0xF9#8 = 0x9#4 by decide, lo_append _ _, hi_append _ _⟩

/-- The frame of a constructed frame's parts has the fields it was made from. -/
theorem WindowParts.frame_ofFields {T : Type} (code : BitVec 3) (rsv : BitVec 5) (user : Byte) (words : List Byte) (crc : Byte)
    (tag pad : Nibble) (hping : code = 0#3 → words = []) (ts te : T) :
    (ofFields code rsv user words crc tag pad hping).frame ts te =
      { frameType := frameTypeOf code
        userData := user
        dataWords := words
        crc := crc
        frameTag := tag.setWidth 8
        startTime := ts
        endTime := te } := by
  simp [frame, ofFields, frameOfParts, frameTagOf]

/-- Decoding reproduces the fields of a constructed frame, a Ping having no words (R74). -/
theorem decodeWindow_frameBytes {T : Type} (code : BitVec 3) (rsv : BitVec 5) (user : Byte) (words : List Byte) (crc : Byte)
    (tag pad : Nibble) (hping : code = 0#3 → words = []) (ts te : T) :
    decodeWindow (frameBytes code rsv user words crc tag pad) ts te =
      .ok (.ok
        { frameType := frameTypeOf code
          userData := user
          dataWords := words
          crc := crc
          frameTag := tag.setWidth 8
          startTime := ts
          endTime := te }) := by
  rw [frameBytes_eq]
  exact (WindowParts.decodeWindow_bytes_of_verdict_none
    (WindowParts.verdict_ofFields code rsv user words crc tag pad hping) ts te).trans
      (by rw [WindowParts.frame_ofFields])

/-- An accepted Ping takes the byte at offset 3 as its crc, whatever follows it. -/
theorem crc_of_accepted_ping {T : Type} {b0 b1 user v : Byte} {rest : List Byte} {ts te : T} {f : DecodedFrame T}
    (hok : decodeWindow (b0 :: b1 :: user :: v :: rest) ts te = .ok (.ok f)) (hping : typeCode b1 = 0#3) :
    f.dataWords = [] ∧ f.crc = v := by
  obtain ⟨p, hp, _, rfl⟩ := WindowParts.exists_of_accepted hok
  rw [WindowParts.bytes] at hp
  injection hp with _ hp
  injection hp with hb1 hp
  injection hp with _ hp
  have hwords : p.words = [] := p.words_of_ping (hb1 ▸ hping)
  rw [hwords] at hp
  injection hp with hcrc _
  exact ⟨hwords, hcrc.symm⟩

/-- Settles O10: the constructed frame is a window in parts with right markers, so `decode` assembles its own fields again; of a Ping
with words, `decode` takes the first word for the crc. -/
theorem roundTripLaw : Obligations.RoundTripLaw := by
  unfold Obligations.RoundTripLaw
  intro T code rsv user words crc tag pad ts te
  refine ⟨fun hping => decodeWindow_frameBytes code rsv user words crc tag pad hping ts te, fun f hping hne hok => ?pingWithWords⟩
  case pingWithWords =>
    cases words with
    | nil => exact absurd rfl hne
    | cons w ws =>
      rw [frameBytes_eq] at hok
      obtain ⟨hwords, hcrc⟩ := crc_of_accepted_ping hok (by rw [typeCode_append, hping])
      exact ⟨hwords, by rw [hcrc]; rfl⟩

end Sys2Proof.Machine
end

section
/-! PROOFS. The laws of `decode` about the length of a window (spec/40_frame_decode.md rules R63, R75, R76, R81, R82). -/

namespace Sys2Proof.Machine

/-- Settles O11: in an accepted window a non-Ping has no tail, so its length counts its words, and a Ping has no words. -/
theorem lengthDerivationLaw : Obligations.LengthDerivationLaw := by
  unfold Obligations.LengthDerivationLaw
  intro T b ts te f b1 hok hb1
  obtain ⟨p, rfl, _, rfl⟩ := WindowParts.exists_of_accepted hok
  obtain rfl : p.b1 = b1 := Option.some.inj hb1
  refine ⟨fun hother => ?notPing, fun hping => p.words_of_ping hping⟩
  case notPing =>
    have hlength : p.bytes.length = p.words.length + 6 := by rw [p.bytes_length, p.tail_of_not_ping hother]; rfl
    rw [p.frame_dataWords]
    omega

/-- `decode` answers `TooShort` exactly for the windows of fewer than 6 bytes (R76). -/
theorem decodeWindow_eq_tooShort {T : Type} (b : List Byte) (ts te : T) :
    decodeWindow b ts te = .ok (.reject .tooShort) ↔ b.length < 6 := by
  refine ⟨fun h => ?_, fun h => decodeWindow_short h ts te⟩
  rcases WindowParts.short_or_bytes b with hshort | ⟨p, rfl⟩
  · exact hshort
  · exact absurd (WindowParts.decodeWindow_bytes_eq_reject.mp h) (markerVerdict_ne_lengthError ..).1

/-- Settles O12: the length check alone answers `TooShort`; a 6-byte Ping with right markers is a constructed frame without words. -/
theorem minimumLengthBoundary : Obligations.MinimumLengthBoundary := by
  unfold Obligations.MinimumLengthBoundary
  intro T ts te
  refine ⟨fun b => (decodeWindow_eq_tooShort b ts te).symm, fun rsv user crc tag pad => ?minimalPing⟩
  case minimalPing =>
    have hok := decodeWindow_frameBytes 0#3 rsv user [] crc tag pad (fun _ => rfl) ts te
    rw [frameBytes_eq] at hok
    exact ⟨_, hok⟩

/-- Settles O17: a window is too short, or it is long enough for its type and the verdict of its markers is the result. -/
theorem negativeDataLengthIsUnreachable : Obligations.NegativeDataLengthIsUnreachable := by
  unfold Obligations.NegativeDataLengthIsUnreachable
  rintro ⟨T, b, ts, te, h⟩
  rcases WindowParts.short_or_bytes b with hshort | ⟨p, rfl⟩
  · simp [decodeWindow_short hshort] at h
  · exact absurd (WindowParts.decodeWindow_bytes_eq_reject.mp h) (markerVerdict_ne_lengthError ..).2

/-- A Ping's result is that of its first six bytes (R82). -/
theorem decodeWindow_ping_take {T : Type} {b : List Byte} {b1 : Byte} (hb1 : b[1]? = some b1) (hping : typeCode b1 = 0#3)
    (hlen : 6 ≤ b.length) (ts te : T) : decodeWindow b ts te = decodeWindow (b.take 6) ts te := by
  rcases WindowParts.short_or_bytes b with hshort | ⟨p, rfl⟩
  · omega
  · obtain rfl : p.b1 = b1 := Option.some.inj hb1
    have hframe : (p.firstSix hping).frame ts te = p.frame ts te := by
      simp only [WindowParts.frame, WindowParts.firstSix, p.words_of_ping hping]
    calc decodeWindow p.bytes ts te
        = .ok (resultOfVerdict p.verdict (p.frame ts te)) := p.decodeWindow_bytes ts te
      _ = .ok (resultOfVerdict (p.firstSix hping).verdict ((p.firstSix hping).frame ts te)) := by rw [hframe]; rfl
      _ = decodeWindow (p.firstSix hping).bytes ts te := ((p.firstSix hping).decodeWindow_bytes ts te).symm
      _ = decodeWindow (p.bytes.take 6) ts te := by rw [p.take_six hping]

/-- Settles O18: a Ping's parts without the tail are its first six bytes, and neither the markers nor the frame are in the tail. -/
theorem pingPrefixLaw : Obligations.PingPrefixLaw := by
  unfold Obligations.PingPrefixLaw
  exact fun T b ts te b1 hb1 hping hlen => decodeWindow_ping_take hb1 hping hlen ts te

/-- The 6 of R63 is a number of every width of at least three bits. -/
theorem toNat_six {w : Nat} (hw : 8 ≤ 2 ^ w) : (6 : BitVec w).toNat = 6 := Nat.mod_eq_of_lt (show 6 < 2 ^ w by omega)

/-- The difference of R63 as a number: `LEN - 6`, or what it wraps to when that is negative. -/
theorem toNat_lengthDifference {w len : Nat} (hw : 8 ≤ 2 ^ w) (hlen : len < 2 ^ w) :
    ((BitVec.ofNat w len).setWidth (w + 1) - 6).toNat = if len < 6 then 2 * 2 ^ w + len - 6 else len - 6 := by
  have hpow : 2 ^ (w + 1) = 2 * 2 ^ w := by rw [Nat.pow_succ, Nat.mul_comm]
  have hsix : (6 : BitVec (w + 1)).toNat = 6 := toNat_six (by omega)
  rw [BitVec.toNat_sub, hsix, BitVec.toNat_setWidth, BitVec.toNat_ofNat, Nat.mod_eq_of_lt hlen, hpow,
    Nat.mod_eq_of_lt (show len < 2 * 2 ^ w by omega)]
  split
  · rw [Nat.mod_eq_of_lt (by omega)]
    omega
  · rw [show 2 * 2 ^ w - 6 + len = len - 6 + 2 * 2 ^ w by omega, Nat.add_mod_right, Nat.mod_eq_of_lt (by omega)]

/-- The top bit of the difference of R63 is its sign: it is 1 exactly when `LEN < 6`. -/
theorem msb_lengthDifference {w len : Nat} (hw : 8 ≤ 2 ^ w) (hlen : len < 2 ^ w) :
    ((BitVec.ofNat w len).setWidth (w + 1) - 6).msb = true ↔ len < 6 := by
  rw [BitVec.msb_eq_decide, decide_eq_true_eq, toNat_lengthDifference hw hlen, Nat.add_sub_cancel]
  split <;> omega

/-- In `LW` bits and without the check, a length of 5 wraps to the greatest number (R63). -/
theorem toNat_five_sub_six {w : Nat} (hw : 8 ≤ 2 ^ w) : (BitVec.ofNat w 5 - 6).toNat = 2 ^ w - 1 := by
  rw [BitVec.toNat_sub, toNat_six hw, BitVec.toNat_ofNat, Nat.mod_eq_of_lt (show 5 < 2 ^ w by omega), Nat.mod_eq_of_lt (by omega)]
  omega

/-- The range of an `LW`-bit length holds `MAXLEN` (R6). -/
theorem maxLen_lt_two_pow_lenWidth (p : Params) : p.maxLen < 2 ^ lenWidth p := Nat.lt_log2_self

/-- A buffer that holds a shortest frame needs at least three bits of length (R6). -/
theorem eight_le_two_pow_lenWidth {p : Params} (h : p.valid = true) : 8 ≤ 2 ^ lenWidth p := by
  have hmax : 6 ≤ p.maxLen := by
    simp only [Params.valid, Bool.and_eq_true, decide_eq_true_eq] at h
    exact h.1
  have hlog : 2 ≤ Nat.log2 p.maxLen := (Nat.le_log2 (by omega)).mpr (by omega)
  exact Nat.pow_le_pow_right (show 0 < 2 by decide) (Nat.succ_le_succ hlog)

/-- Settles O24: the difference as a number decides its top bit and its low bits. -/
theorem lengthSubtractionDoesNotWrap : Obligations.LengthSubtractionDoesNotWrap := by
  unfold Obligations.LengthSubtractionDoesNotWrap
  intro p code len hvalid hlen hcode lw d
  have hw : 8 ≤ 2 ^ lw := eight_le_two_pow_lenWidth hvalid
  have hlt : len < 2 ^ lw := lt_of_le_of_lt hlen (maxLen_lt_two_pow_lenWidth p)
  have hmsb : d.msb = true ↔ len < 6 := msb_lengthDifference hw hlt
  refine ⟨hmsb, fun hsign => ?count, fun hsign => dataWordCount_of_lt hcode (hmsb.mp hsign), toNat_five_sub_six hw⟩
  case count =>
    have hlong : ¬ len < 6 := fun h => by simp [hmsb.mpr h] at hsign
    have hlow : (d.setWidth lw).toNat = len - 6 := by
      rw [BitVec.toNat_setWidth, toNat_lengthDifference hw hlt, if_neg hlong]
      exact Nat.mod_eq_of_lt (by omega)
    rw [hlow]
    exact dataWordCount_of_le hcode (by omega)

end Sys2Proof.Machine
end

section
/-! PROOFS. Which bits of a window `decode` checks, copies and ignores (spec/40_frame_decode.md rules R77 to R80, R83). -/

namespace Sys2Proof.Machine

/-- Byte 1 matters by its type code alone (R78). -/
theorem decodeWindow_set_typeByte {T : Type} {b : List Byte} {b1 b1' : Byte} (hb1 : b[1]? = some b1)
    (htype : typeCode b1' = typeCode b1) (ts te : T) : decodeWindow (b.set 1 b1') ts te = decodeWindow b ts te := by
  rcases WindowParts.short_or_bytes b with hshort | ⟨p, rfl⟩
  · rw [decodeWindow_short hshort, decodeWindow_short (by rwa [List.length_set])]
  · obtain rfl : p.b1 = b1 := Option.some.inj hb1
    have hcount : ∀ len, dataWordCount (typeCode b1') len = dataWordCount (typeCode p.b1) len := fun len => by rw [htype]
    have hframe : (p.setTypeByte b1' hcount).frame ts te = p.frame ts te := by
      simp only [WindowParts.frame, WindowParts.setTypeByte, frameOfParts, htype]
    rw [p.set_typeByte b1' hcount, WindowParts.decodeWindow_bytes, hframe, p.decodeWindow_bytes]
    rfl

/-- The postamble byte matters by its high nibble alone (R78). -/
theorem decodeWindow_set_post {T : Type} {b : List Byte} {b1 v v' : Byte} {n : Nat} (hb1 : b[1]? = some b1)
    (hn : dataWordCount (typeCode b1) b.length = .ok n) (hv : b[3 + n + 2]? = some v) (hhi : hi v' = hi v) (ts te : T) :
    decodeWindow (b.set (3 + n + 2) v') ts te = decodeWindow b ts te := by
  rcases WindowParts.short_or_bytes b with hshort | ⟨p, rfl⟩
  · rw [decodeWindow_short hshort, decodeWindow_short (by rwa [List.length_set])]
  · obtain rfl : p.b1 = b1 := Option.some.inj hb1
    rw [p.bytes_length, p.counted] at hn
    obtain rfl : p.words.length = n := Except.ok.inj hn
    obtain rfl : p.post = v := Option.some.inj (p.getElem?_post.symm.trans hv)
    have hverdict : WindowParts.verdict { p with post := v' } = p.verdict := markerVerdict_congr rfl hhi
    rw [p.set_post, WindowParts.decodeWindow_bytes, hverdict, p.decodeWindow_bytes]
    rfl

/-- Settles O14: the verdict and the frame read neither the reserved bits nor the pad nibble, and a Ping's result is that of its first
six bytes. -/
theorem ignoredBitsDoNotMatter : Obligations.IgnoredBitsDoNotMatter := by
  unfold Obligations.IgnoredBitsDoNotMatter
  intro T b ts te b1 hb1
  refine ⟨fun b1' htype => decodeWindow_set_typeByte hb1 htype ts te,
    fun n v v' hn hv hhi => decodeWindow_set_post hb1 hn hv hhi ts te, fun b' hping hlen hlen' htake => ?afterPing⟩
  case afterPing =>
    have hb1' : b'[1]? = some b1 := by
      rw [← List.getElem?_take_of_lt (show 1 < 6 by decide), htake, List.getElem?_take_of_lt (by decide), hb1]
    rw [decodeWindow_ping_take hb1' hping hlen', htake, ← decodeWindow_ping_take hb1 hping hlen]

/-- Settles O13: a flipped bit of a marker makes its nibble wrong and leaves the markers before it right, so the verdict names that
marker; the reserved bits are ignored. -/
theorem markerSensitivity : Obligations.MarkerSensitivity := by
  unfold Obligations.MarkerSensitivity
  intro T b ts te f k hok
  obtain ⟨p, rfl, hv, rfl⟩ := WindowParts.exists_of_accepted hok
  obtain ⟨hpreamble, hsof, heof, hpostamble⟩ := markerVerdict_eq_none.mp hv
  refine ⟨fun h4 h8 => ?preamble, fun h4 => ?sof, fun h4 => ?eof, fun h4 h8 => ?postamble, fun h5 => ?reserved⟩
  case preamble =>
    have hverdict : WindowParts.verdict { p with b0 := p.b0 ^^^ (1#8 <<< k) } = some .badPreamble :=
      markerVerdict_badPreamble (hi_flip_ne hpreamble h4 h8) p.tagEof p.post
    rw [p.flipBit_b0, WindowParts.decodeWindow_bytes_eq_reject.mpr hverdict]
  case sof =>
    have hverdict : WindowParts.verdict { p with b0 := p.b0 ^^^ (1#8 <<< k) } = some .badStartMarker :=
      markerVerdict_badStartMarker ((hi_flip_low p.b0 h4).trans hpreamble) (lo_flip_ne hsof h4) p.tagEof p.post
    rw [p.flipBit_b0, WindowParts.decodeWindow_bytes_eq_reject.mpr hverdict]
  case eof =>
    have hverdict : WindowParts.verdict { p with tagEof := p.tagEof ^^^ (1#8 <<< k) } = some .badEndMarker :=
      markerVerdict_badEndMarker hpreamble hsof (lo_flip_ne heof h4) p.post
    rw [p.frame_dataWords, p.flipBit_tagEof, WindowParts.decodeWindow_bytes_eq_reject.mpr hverdict]
  case postamble =>
    have hverdict : WindowParts.verdict { p with post := p.post ^^^ (1#8 <<< k) } = some .badPostamble :=
      markerVerdict_badPostamble hpreamble hsof heof (hi_flip_ne hpostamble h4 h8)
    rw [p.frame_dataWords, p.flipBit_post, WindowParts.decodeWindow_bytes_eq_reject.mpr hverdict]
  case reserved =>
    rw [flipBit_eq_set (v := p.b1) rfl, decodeWindow_set_typeByte rfl (typeCode_flip_reserved p.b1 h5), hok]

/-- Replacing a non-zero type code by another one keeps the verdict and changes the frame's type only (R79). -/
theorem decodeWindow_set_code {T : Type} (p : WindowParts) {code : BitVec 3} (hother : typeCode p.b1 ≠ 0#3) (hcode : code ≠ 0#3)
    (rsv : BitVec 5) (ts te : T) :
    decodeWindow (p.bytes.set 1 (code ++ rsv)) ts te =
      .ok (resultOfVerdict p.verdict { p.frame ts te with frameType := frameTypeOf code }) := by
  have hcount : ∀ len, dataWordCount (typeCode (code ++ rsv)) len = dataWordCount (typeCode p.b1) len := fun len => by
    rw [typeCode_append]
    exact dataWordCount_congr hcode hother len
  have hframe : (p.setTypeByte (code ++ rsv) hcount).frame ts te = { p.frame ts te with frameType := frameTypeOf code } := by
    simp [WindowParts.frame, WindowParts.setTypeByte, frameOfParts]
  rw [p.set_typeByte _ hcount, WindowParts.decodeWindow_bytes, hframe]
  rfl

/-- A non-Ping window whose markers stand at both of its ends is accepted with the type of its code. -/
theorem accepted_of_markers {T : Type} {b : List Byte} {b1 tagEof post : Byte} (hb1 : b[1]? = some b1)
    (hother : typeCode b1 ≠ 0#3) (hlen : 6 ≤ b.length) (hb0 : b[0]? = some 0xF9#8) (htag : b[b.length - 2]? = some tagEof)
    (heof : lo tagEof = 0x6#4) (hpost : b[b.length - 1]? = some post) (hpostamble : hi post = 0xF#4) (ts te : T) :
    ∃ f, decodeWindow b ts te = .ok (.ok f) ∧ f.frameType = frameTypeOf (typeCode b1) := by
  rcases WindowParts.short_or_bytes b with hshort | ⟨p, rfl⟩
  · omega
  · obtain rfl : p.b1 = b1 := Option.some.inj hb1
    have hfirst : p.b0 = 0xF9#8 := Option.some.inj hb0
    have hlength : p.bytes.length = p.words.length + 6 := by rw [p.bytes_length, p.tail_of_not_ping hother]; rfl
    rw [show p.bytes.length - 2 = 3 + p.words.length + 1 by omega, p.getElem?_tagEof] at htag
    rw [show p.bytes.length - 1 = 3 + p.words.length + 2 by omega, p.getElem?_post] at hpost
    obtain rfl : p.tagEof = tagEof := Option.some.inj htag
    obtain rfl : p.post = post := Option.some.inj hpost
    have hverdict : p.verdict = none :=
      markerVerdict_eq_none.mpr ⟨by rw [hfirst]; decide, by rw [hfirst]; decide, heof, hpostamble⟩
    exact ⟨p.frame ts te, p.decodeWindow_bytes_of_verdict_none hverdict ts te, rfl⟩

/-- Settles O15: the number of data words, the markers and every field but the type are the same for all non-zero type codes. -/
theorem unknownTypePassThrough : Obligations.UnknownTypePassThrough := by
  unfold Obligations.UnknownTypePassThrough
  intro T b ts te b1 hb1 hother
  refine ⟨fun code hcode => ⟨fun e hrej => ?rejected, fun f hok => ?accepted⟩,
    fun tagEof post hcode hlen hb0 htag heof hpost hpostamble => ?unknownCode⟩
  case rejected =>
    rcases WindowParts.short_or_bytes b with hshort | ⟨p, rfl⟩
    · rw [decodeWindow_short (by rwa [List.length_set]), ← decodeWindow_short hshort ts te, hrej]
    · obtain rfl : p.b1 = b1 := Option.some.inj hb1
      rw [decodeWindow_set_code p hother hcode, WindowParts.decodeWindow_bytes_eq_reject.mp hrej, resultOfVerdict_some]
  case accepted =>
    obtain ⟨p, rfl, hv, rfl⟩ := WindowParts.exists_of_accepted hok
    obtain rfl : p.b1 = b1 := Option.some.inj hb1
    rw [decodeWindow_set_code p hother hcode, hv, resultOfVerdict_none]
  case unknownCode =>
    obtain ⟨f, hok, htype⟩ := accepted_of_markers hb1 hother hlen hb0 htag heof hpost hpostamble ts te
    exact ⟨f, hok, by rw [htype, hcode]; rfl⟩

/-- Settles O16: each of these bytes is one part of the window; the verdict reads none of them but the EOF nibble, which stays, and
the frame copies the part to its field. -/
theorem opaqueFieldsAreCopied : Obligations.OpaqueFieldsAreCopied := by
  unfold Obligations.OpaqueFieldsAreCopied
  intro T b ts te f hok
  obtain ⟨p, rfl, hv, rfl⟩ := WindowParts.exists_of_accepted hok
  refine ⟨fun v => ?user, fun k v hk => ?word, fun v => ?crc, fun tag => ?tag⟩
  case user =>
    rw [p.set_user]
    exact WindowParts.decodeWindow_bytes_of_verdict_none (p := { p with user := v }) hv ts te
  case word =>
    rw [p.set_word hk]
    exact WindowParts.decodeWindow_bytes_of_verdict_none (p := p.setWord k v) hv ts te
  case crc =>
    rw [p.frame_dataWords, p.set_crc]
    exact WindowParts.decodeWindow_bytes_of_verdict_none (p := { p with crc := v }) hv ts te
  case tag =>
    obtain ⟨-, -, heof, -⟩ := markerVerdict_eq_none.mp hv
    have hverdict : WindowParts.verdict { p with tagEof := tag ++ 0x6#4 } = none :=
      (markerVerdict_congr ((lo_append _ _).trans heof.symm) rfl).trans hv
    have hframe : WindowParts.frame { p with tagEof := tag ++ 0x6#4 } ts te = { p.frame ts te with frameTag := tag.setWidth 8 } := by
      simp [WindowParts.frame, frameOfParts, frameTagOf]
    rw [← hframe, p.frame_dataWords, p.set_tagEof]
    exact WindowParts.decodeWindow_bytes_of_verdict_none hverdict ts te

/-- The result of a window is decided without its markers: one rejection for all of them, or for all of them a frame that carries
them. -/
theorem decodeWindow_uniform (b : List Byte) :
    (∃ e, ∀ (T : Type) (ts te : T), decodeWindow b ts te = .ok (.reject e)) ∨
    (∀ (T : Type) (ts te : T), ∃ f, decodeWindow b ts te = .ok (.ok f) ∧ f.startTime = ts ∧ f.endTime = te) := by
  rcases WindowParts.short_or_bytes b with hshort | ⟨p, rfl⟩
  · exact .inl ⟨.tooShort, fun T ts te => decodeWindow_short hshort ts te⟩
  · cases hv : p.verdict with
    | some e => exact .inl ⟨e, fun T ts te => WindowParts.decodeWindow_bytes_eq_reject.mpr hv⟩
    | none => exact .inr fun T ts te => ⟨p.frame ts te, p.decodeWindow_bytes_of_verdict_none hv ts te, rfl, rfl⟩

/-- Settles O19: the verdict reads the window's bytes alone, and the frame carries the markers as given. -/
theorem timingMarkerPassThrough : Obligations.TimingMarkerPassThrough := by
  unfold Obligations.TimingMarkerPassThrough
  intro T U b ts te ts' te'
  rcases decodeWindow_uniform b with ⟨e, hrej⟩ | hacc
  · simp [hrej]
  · obtain ⟨f, hf, hts, hte⟩ := hacc T ts te
    obtain ⟨f', hf', -, -⟩ := hacc U ts' te'
    simp [hf, hf', hts, hte]

end Sys2Proof.Machine
end

section
/-! PROOFS. The word read port (spec/41_port_operations.md rule R94). -/

namespace Sys2Proof.Machine

/-- What the output function answers is the record of some result; the index plays no part in finding that result (R23). -/
theorem State.outputs_eq_ok {s : State} {rd : Nat} {o : Outputs} (h : s.outputs rd = .ok o) :
    ∃ res, o = outputsOf s.done res rd ∧ ∀ rd', s.outputs rd' = .ok (outputsOf s.done res rd') := by
  cases hres : s.result with
  | error e => simp [State.outputs, hres, bind, Except.bind] at h
  | ok res =>
    have hall : ∀ rd', s.outputs rd' = .ok (outputsOf s.done res rd') := fun rd' => by
      simp [State.outputs, hres, bind, Except.bind, pure, Except.pure]
    exact ⟨res, Except.ok.inj (h.symm.trans (hall rd)), hall⟩

/-- Another index changes `rd_word` alone (R94). -/
theorem outputsOf_other_index (done : Bool) (res : Option Presented) (rd rd' : Nat) :
    outputsOf done res rd' = { outputsOf done res rd with rdWord := (outputsOf done res rd').rdWord } := by
  match res with
  | some (.result (.ok f)) => rfl
  | some (.result (.reject e)) => rfl
  | some .overflow => rfl
  | none => rfl

/-- Without a frame `rd_word` is `0x00` (R94, R113). -/
theorem rdWord_outputsOf_of_not_ok {done : Bool} {res : Option Presented} {rd : Nat}
    (h : (outputsOf done res rd).outOk = false) : (outputsOf done res rd).rdWord = 0x00#8 := by
  match res with
  | some (.result (.ok f)) => exact absurd h (by simp [outputsOf])
  | some (.result (.reject e)) => rfl
  | some .overflow => rfl
  | none => rfl

/-- Below the number of words the indexed word is that word (R94). -/
theorem getElem?_eq_dataWord {words : List Byte} {rd : Nat} (h : rd < words.length) : words[rd]? = some (dataWord words rd) := by
  simp [dataWord, h]

/-- At and past the number of words the indexed word is `0x00` (R94). -/
theorem dataWord_of_le {words : List Byte} {rd : Nat} (h : words.length ≤ rd) : dataWord words rd = 0x00#8 := by
  simp [dataWord, h]

/-- Data word `k` stands at offset `HDR_LEN + k` (R44). -/
theorem WindowParts.getElem?_word (p : WindowParts) {k : Nat} (hk : k < p.words.length) : p.bytes[3 + k]? = p.words[k]? := by
  rw [show 3 + k = k + 3 from Nat.add_comm 3 k]
  simp [WindowParts.bytes, List.getElem?_append_left hk]

/-- The byte at an offset of the window is that of the cell with this number (R28). -/
theorem State.cell_of_window {s : State} {b : List Byte} {i : Nat} {v : Byte} (hw : s.window = .ok b) (hv : b[i]? = some v) :
    s.cell i = .ok v := by
  obtain ⟨hlen, rfl⟩ := State.window_eq_ok hw
  obtain ⟨hi, rfl⟩ : i < s.len ∧ s.cellBits i = v := by simpa [List.getElem?_eq_some_iff] using hv
  exact State.cell_of_lt (by omega)

/-- Settles O52: the index enters the output function in the indexed word alone, and data word `k` of an accepted window is its byte at
offset `3 + k`, which is read from cell `3 + k`. -/
theorem wordReadPort : Obligations.WordReadPort := by
  unfold Obligations.WordReadPort
  intro s rd o ho
  refine ⟨fun b f hd hovf hw hdec => ?frame, ?noFrame, fun rd' => ?otherIndex⟩
  case frame =>
    obtain rfl : outputsOf true (some (.result (.ok f))) rd = o :=
      Except.ok.inj ((State.outputs_hold hd hovf hw hdec rd).symm.trans ho)
    refine ⟨rfl, rfl, fun hrd => ?word, dataWord_of_le⟩
    case word =>
      have hword := getElem?_eq_dataWord hrd
      obtain ⟨p, rfl, -, rfl⟩ := WindowParts.exists_of_accepted hdec
      exact ⟨hword, State.cell_of_window hw ((p.getElem?_word hrd).trans hword)⟩
  case noFrame =>
    obtain ⟨res, rfl, -⟩ := State.outputs_eq_ok ho
    exact rdWord_outputsOf_of_not_ok
  case otherIndex =>
    obtain ⟨res, rfl, hall⟩ := State.outputs_eq_ok ho
    exact ⟨_, (hall rd').trans (congrArg Except.ok (outputsOf_other_index s.done res rd rd'))⟩

end Sys2Proof.Machine
end

section
/-! PROOFS. One cycle of a window transaction, and the cycles of a script (spec/41_port_operations.md rules R85, R95). -/

namespace Sys2Proof.Machine

/-! ### The edge, for the three kinds of cycle of a transaction -/

/-- What a beat does to the buffer in COLLECT: the byte is appended if the beat carries one (R21, R89). -/
def State.acceptBeat (s : State) : State := if s.ports.inValid && s.ports.inKeep then s.appendByte else s

@[simp] theorem State.acceptBeat_done (s : State) : s.acceptBeat.done = s.done := by unfold acceptBeat; split <;> simp
@[simp] theorem State.acceptBeat_ports (s : State) : s.acceptBeat.ports = s.ports := by unfold acceptBeat; split <;> simp
@[simp] theorem State.acceptBeat_pending (s : State) : s.acceptBeat.pending = s.pending := by unfold acceptBeat; split <;> simp

/-- IDLE, NULL and APPEND accept the beat and do nothing else (R87 to R89). -/
theorem clockEdge_keepsOpen {s : State} (hd : s.done = false) (hi : keepsOpen s.ports = true) :
    clockEdge s = .next s.acceptBeat := by
  obtain ⟨hr, hopen⟩ : s.ports.rst = false ∧ (s.ports.inValid = false ∨ s.ports.inLast = false) := by simpa [keepsOpen] using hi
  rcases clockEdge_cases s with ⟨-, h⟩ | ⟨he, -, h⟩ | ⟨he, -, -, hv, hk, -⟩ | ⟨-, -, -, hv, -, hl⟩ | ⟨-, -, -, hv, -, hl⟩
  · simp [hr, hd] at h
  · have hnone : (s.ports.inValid && s.ports.inKeep) = false := by
      rcases h with ⟨h, -⟩ | ⟨-, hv⟩ | ⟨-, -, hk, -⟩
      · simp [hd] at h
      · simp [hv]
      · simp [hk]
    simp [he, State.acceptBeat, hnone]
  · simp [he, State.acceptBeat, hv, hk]
  all_goals simp [hv, hl] at hopen

/-- CLOSE and APPEND_CLOSE accept the beat and close the window (R90, R91). -/
theorem clockEdge_closesWindow {s : State} (hd : s.done = false) (hi : closesWindow s.ports = true) :
    clockEdge s = .next s.acceptBeat.closeWindow := by
  obtain ⟨⟨hr, hv⟩, hl⟩ : (s.ports.rst = false ∧ s.ports.inValid = true) ∧ s.ports.inLast = true := by
    simpa [closesWindow] using hi
  rcases clockEdge_cases s with ⟨-, h⟩ | ⟨-, -, h⟩ | ⟨-, -, -, -, -, h⟩ | ⟨he, -, -, -, hk, -⟩ | ⟨he, -, -, -, hk, -⟩
  · simp [hr, hd] at h
  · simp [hd, hv, hl] at h
  · simp [hl] at h
  · simp [he, State.acceptBeat, hk]
  · simp [he, State.acceptBeat, hv, hk]

/-- HOLD changes nothing (R92). -/
theorem clockEdge_holdsResult {s : State} (hd : s.done = true) (hi : holdsResult s.ports = true) : clockEdge s = .next s := by
  obtain ⟨hr, ha⟩ : s.ports.rst = false ∧ s.ports.outReady = false := by simpa [holdsResult] using hi
  rcases clockEdge_cases s with ⟨-, h⟩ | ⟨he, -⟩ | ⟨-, -, h, -⟩ | ⟨-, -, h, -⟩ | ⟨-, -, h, -⟩
  · simp [hr, ha] at h
  · exact he
  all_goals simp [hd] at h

/-! ### The step and the run -/

/-- The state at the edge of a cycle of a script: the ports carry the cycle's values `i`, the outputs `o` are recorded (R84). -/
def State.atEdge (s : State) (i : Inputs) (rest : List Inputs) (o : Outputs) : State :=
  { s with ports := fitPorts s.params i, pending := rest, cycle := s.cycle + 1, seen := o }

@[simp] theorem State.atEdge_done (s : State) (i rest o) : (s.atEdge i rest o).done = s.done := rfl
@[simp] theorem State.atEdge_ports (s : State) (i rest o) : (s.atEdge i rest o).ports = fitPorts s.params i := rfl
@[simp] theorem State.atEdge_pending (s : State) (i rest o) : (s.atEdge i rest o).pending = rest := rfl

/-- With `LEN` in its range the step of a scripted cycle is the edge that ends the cycle (R84). -/
theorem step_scripted {s : State} {i : Inputs} {rest : List Inputs} (hlen : s.len ≤ s.params.maxLen) (hp : s.pending = i :: rest) :
    ∃ o, step s = clockEdge (s.atEdge i rest o) := by
  obtain ⟨o, ho⟩ := settle_of_le (s := s.takePorts) hlen
  have hedge : { s.takePorts with seen := o } = s.atEdge i rest o := by
    simp [State.takePorts, State.nextPorts, hp, State.atEdge]
  exact ⟨o, by simp only [step, clockCycle, ho, hedge]⟩

/-- The induction over a script of cycles: `P past s` says what holds in `s` after the cycles `past`; when every cycle that `ok` allows
carries it over, it holds after the whole script, and a longer run goes on from there. -/
theorem run_script {ok : Inputs → Bool} {P : List Inputs → State → Prop}
    (hstep : ∀ past i rest s, P past s → s.pending = i :: rest → ok i = true →
      ∃ t, step s = .next t ∧ t.pending = rest ∧ P (past ++ [i]) t)
    (script past rest : List Inputs) (s : State) (hs : P past s) (hp : s.pending = script ++ rest)
    (hok : script.all ok = true) :
    ∃ t, (∀ n, core.run (script.length + n) s = core.run n t) ∧ t.pending = rest ∧ P (past ++ script) t := by
  induction script generalizing past s with
  | nil => exact ⟨s, fun n => by rw [List.length_nil, Nat.zero_add], hp, by simpa using hs⟩
  | cons i script ih =>
    obtain ⟨hi, hscript⟩ : ok i = true ∧ script.all ok = true := by simpa using hok
    obtain ⟨t, ht, htp, hPt⟩ := hstep past i (script ++ rest) s hs hp hi
    obtain ⟨u, hu, hup, hPu⟩ := ih (past ++ [i]) t hPt htp hscript
    refine ⟨u, fun n => ?_, hup, by simpa using hPu⟩
    rw [List.length_cons, Nat.add_right_comm, run_of_step ht, hu]

end Sys2Proof.Machine
end

section
/-! PROOFS. The bytes that the window buffer has received (spec/10_state.md rules R16, R27 to R29), and what a window transaction
presents (spec/41_port_operations.md rules R95, R96). -/

namespace Sys2Proof.Machine

/-! ### The output function -/

/-- `decode` answers a result for every window (R59, R32). -/
theorem decodeWindow_answers {T : Type} (b : List Byte) (ts te : T) : ∃ r, decodeWindow b ts te = .ok r := by
  rcases decodeWindow_uniform b with ⟨e, hrej⟩ | hacc
  · exact ⟨.reject e, hrej T ts te⟩
  · obtain ⟨f, hf, -, -⟩ := hacc T ts te
    exact ⟨.ok f, hf⟩

/-- In HOLD of an overflowed window the output function is the refusal (R108). -/
theorem State.outputs_overflow {s : State} (hd : s.done = true) (ho : s.ovf = true) (rd : Nat) :
    s.outputs rd = .ok Outputs.overflow := by
  simp [State.outputs, State.result, hd, ho, bind, Except.bind, pure, Except.pure, outputsOf, outErrOf, Outputs.overflow]

/-! ### The buffer after some bytes -/

/-- The buffer of a block with parameters `p` after the bytes `b` were delivered to the empty window: `LEN` counts them up to `MAXLEN`,
`OVF` says that there were more, and the cells hold them in order (R16, R27 items 3 and 5). -/
structure State.Received (p : Params) (b : List Byte) (s : State) : Prop where
  params : s.params = p
  len : s.len = min b.length p.maxLen
  ovf : s.ovf = true ↔ p.maxLen < b.length
  cells : ∀ i v, i < p.maxLen → b[i]? = some v → s.cellBits i = v

theorem State.Empty.received {s : State} (h : s.Empty) : s.Received s.params [] := by
  obtain ⟨-, hlen, hovf⟩ := h
  exact { params := rfl, len := by simp [hlen], ovf := by simp [hovf], cells := by simp }

/-- Of the state, `Received` reads the parameters and the buffer alone. -/
theorem State.Received.congr {p : Params} {b : List Byte} {s t : State} (h : s.Received p b) (hp : t.params = s.params)
    (hl : t.len = s.len) (ho : t.ovf = s.ovf) (hw : t.w = s.w) : t.Received p b where
  params := hp.trans h.params
  len := hl.trans h.len
  ovf := by rw [ho, h.ovf]
  cells i v hi hv := by rw [State.cellBits, hw]; exact h.cells i v hi hv

theorem State.Received.len_le {p : Params} {b : List Byte} {s : State} (h : s.Received p b) : s.len ≤ s.params.maxLen := by
  rw [h.len, h.params]
  exact Nat.min_le_right ..

/-- A cell after a store: the byte in its cell, the others as before. -/
theorem State.cellBits_write (s : State) (a i : Nat) (v : Byte) :
    { s with w := s.w.write a v }.cellBits i = if i = a then v else s.cellBits i := by
  simp only [State.cellBits, Memory.read_write]
  by_cases h : i = a <;> simp [h]

/-- A byte that finds room is stored behind the bytes received and counted (R89). -/
theorem State.Received.store {p : Params} {b : List Byte} {s : State} (h : s.Received p b) (hroom : s.len < p.maxLen) (v : Byte) :
    { s with w := s.w.write s.len v, len := s.len + 1 }.Received p (b ++ [v]) := by
  have hall : s.len = b.length := by have := h.len; omega
  have hgrown : (b ++ [v]).length = b.length + 1 := List.length_append
  refine { params := h.params, len := ?len, ovf := h.ovf.trans ?ovf, cells := fun i u hi hu => ?cells }
  case len => exact (show s.len + 1 = _ by omega)
  case ovf => omega
  case cells =>
    refine (s.cellBits_write s.len i v).trans ?_
    rcases Nat.lt_trichotomy i b.length with hbelow | rfl | habove
    · rw [if_neg (by omega)]
      exact h.cells i u hi (by rwa [List.getElem?_append_left hbelow] at hu)
    · rw [if_pos hall.symm]
      simpa using hu
    · rw [List.getElem?_eq_none (by omega)] at hu
      cases hu

/-- A byte that finds the buffer full is dropped and sets `OVF` (R16). -/
theorem State.Received.discard {p : Params} {b : List Byte} {s : State} (h : s.Received p b) (hfull : p.maxLen ≤ s.len) (v : Byte) :
    { s with ovf := true }.Received p (b ++ [v]) := by
  have hlen := h.len
  have hgrown : (b ++ [v]).length = b.length + 1 := List.length_append
  refine { params := h.params, len := hlen.trans ?len, ovf := iff_of_true rfl ?ovf, cells := fun i u hi hu => ?cells }
  case len => omega
  case ovf => omega
  case cells => exact h.cells i u hi (by rwa [List.getElem?_append_left (by omega)] at hu)

/-- Appending a byte adds it to the bytes received, whether it is stored or dropped. -/
theorem State.Received.appendByte {p : Params} {b : List Byte} {s : State} (h : s.Received p b) :
    s.appendByte.Received p (b ++ [s.ports.inData]) := by
  rcases s.appendByte_cases with ⟨hroom, happend⟩ | ⟨hfull, happend⟩
  · rw [happend]
    exact h.store (by rwa [← h.params]) _
  · rw [happend]
    exact h.discard (by rwa [← h.params]) _

/-- A beat in COLLECT adds the byte it offers. -/
theorem State.Received.acceptBeat {p : Params} {b : List Byte} {s : State} (h : s.Received p b) :
    s.acceptBeat.Received p (b ++ byteOffered s.ports) := by
  unfold State.acceptBeat byteOffered
  split
  · exact h.appendByte
  · simpa using h

/-- The window is the bytes received, when they fit (R28). -/
theorem State.Received.window {p : Params} {b : List Byte} {s : State} (h : s.Received p b) (hfit : b.length ≤ p.maxLen) :
    s.window = .ok b := by
  have hlen : s.len = b.length := h.len.trans (Nat.min_eq_left hfit)
  rw [State.window_of_le h.len_le, hlen]
  refine congrArg Except.ok (List.ext_getElem (by simp) fun i _ hi => ?_)
  simpa using h.cells i b[i] (by omega) (List.getElem?_eq_getElem hi)

/-! ### The cycles of a transaction -/

/-- COLLECT with a window in the making that has received `b`. -/
structure Collecting (p : Params) (b : List Byte) (s : State) : Prop where
  collect : s.done = false
  received : s.Received p b

theorem State.Empty.collecting {s : State} (h : s.Empty) : Collecting s.params [] s := by
  have ⟨hd, _, _⟩ := h
  exact ⟨hd, h.received⟩

/-- HOLD of a window that has received `b` and was closed with the markers `ts`, `te`. -/
structure Holding (p : Params) (b : List Byte) (ts te : Nat) (s : State) : Prop where
  hold : s.done = true
  startTime : s.ts = ts
  endTime : s.te = te
  received : s.Received p b

/-- A cycle that keeps the window open adds the byte it offers. -/
theorem step_keepsOpen {p : Params} {b : List Byte} {s : State} {i : Inputs} {rest : List Inputs} (h : Collecting p b s)
    (hp : s.pending = i :: rest) (hi : keepsOpen i = true) :
    ∃ t, step s = .next t ∧ t.pending = rest ∧ Collecting p (b ++ byteOffered i) t := by
  obtain ⟨hd, hb⟩ := h
  obtain ⟨o, ho⟩ := step_scripted hb.len_le hp
  have hedge : (s.atEdge i rest o).Received p b := hb.congr rfl rfl rfl rfl
  exact ⟨_, ho.trans (clockEdge_keepsOpen hd hi), by simp, by simpa using hd, hedge.acceptBeat⟩

/-- A closing beat adds the byte it offers, latches its markers and leads to HOLD (R90, R91). -/
theorem step_closesWindow {p : Params} {b : List Byte} {s : State} {i : Inputs} {rest : List Inputs} (h : Collecting p b s)
    (hp : s.pending = i :: rest) (hi : closesWindow i = true) :
    ∃ t, step s = .next t ∧ t.pending = rest ∧
      Holding p (b ++ byteOffered i) (i.inTs % 2 ^ p.tw) (i.inTe % 2 ^ p.tw) t := by
  obtain ⟨hd, hb⟩ := h
  obtain ⟨o, ho⟩ := step_scripted hb.len_le hp
  have hedge : (s.atEdge i rest o).Received p b := hb.congr rfl rfl rfl rfl
  refine ⟨_, ho.trans (clockEdge_closesWindow hd hi), by simp, rfl, ?ts, ?te, hedge.acceptBeat.congr rfl rfl rfl rfl⟩
  case ts => simp [fitPorts, hb.params]
  case te => simp [fitPorts, hb.params]

/-- A cycle of HOLD keeps the closed window (R92). -/
theorem step_holdsResult {p : Params} {b : List Byte} {ts te : Nat} {s : State} {i : Inputs} {rest : List Inputs}
    (h : Holding p b ts te s) (hp : s.pending = i :: rest) (hi : holdsResult i = true) :
    ∃ t, step s = .next t ∧ t.pending = rest ∧ Holding p b ts te t := by
  obtain ⟨hd, hts, hte, hb⟩ := h
  obtain ⟨o, ho⟩ := step_scripted hb.len_le hp
  exact ⟨_, ho.trans (clockEdge_holdsResult hd hi), rfl, hd, hts, hte, hb.congr rfl rfl rfl rfl⟩

/-- The cycles before the closing beat collect the bytes that they deliver. -/
theorem run_keepsOpen {s : State} (script rest : List Inputs) (hs : s.Empty) (hp : s.pending = script ++ rest)
    (hok : script.all keepsOpen = true) :
    ∃ t, (∀ n, core.run (script.length + n) s = core.run n t) ∧ t.pending = rest ∧
      Collecting s.params (bytesDelivered script) t := by
  refine run_script (P := fun past t => Collecting s.params (bytesDelivered past) t) (fun past i rest' u hu hup hi => ?cycle)
    script [] rest s hs.collecting hp hok
  case cycle =>
    obtain ⟨t, ht, htp, hcollect⟩ := step_keepsOpen hu hup hi
    exact ⟨t, ht, htp, by simpa [bytesDelivered] using hcollect⟩

/-- The cycles after the closing beat keep the closed window. -/
theorem run_holdsResult {p : Params} {b : List Byte} {ts te : Nat} {s : State} (script rest : List Inputs) (hs : Holding p b ts te s)
    (hp : s.pending = script ++ rest) (hok : script.all holdsResult = true) :
    ∃ t, (∀ n, core.run (script.length + n) s = core.run n t) ∧ t.pending = rest ∧ Holding p b ts te t :=
  run_script (P := fun _ t => Holding p b ts te t) (fun _ _ _ _ hu hup hi => step_holdsResult hu hup hi) script [] rest s hs hp hok

/-- A window transaction from an empty window ends in HOLD of the bytes that it delivers, with the closing beat's markers. -/
theorem run_transaction {s : State} {x : Transaction} {rest : List Inputs} (hs : s.Empty) (hp : s.pending = x.script ++ rest)
    (hx : x.wf s.params = true) :
    ∃ t, core.run x.script.length s = .next t ∧ t.pending = rest ∧ Holding s.params x.bytes x.closing.inTs x.closing.inTe t := by
  obtain ⟨⟨⟨⟨hbefore, hclosing⟩, hafter⟩, hts⟩, hte⟩ :
      (((x.before.all keepsOpen = true ∧ closesWindow x.closing = true) ∧ x.after.all holdsResult = true) ∧
        x.closing.inTs < 2 ^ s.params.tw) ∧ x.closing.inTe < 2 ^ s.params.tw := by
    simpa only [Transaction.wf, Bool.and_eq_true, decide_eq_true_eq] using hx
  have hpending : s.pending = x.before ++ (x.closing :: (x.after ++ rest)) := by
    rw [hp, Transaction.script, List.append_assoc, List.cons_append]
  obtain ⟨t, hrun, htp, hcollect⟩ := run_keepsOpen x.before _ hs hpending hbefore
  obtain ⟨u, hclose, hup, hhold⟩ := step_closesWindow hcollect htp hclosing
  have hbytes : bytesDelivered x.before ++ byteOffered x.closing = x.bytes := by simp [Transaction.bytes, bytesDelivered]
  rw [hbytes, Nat.mod_eq_of_lt hts, Nat.mod_eq_of_lt hte] at hhold
  obtain ⟨v, hwait, hvp, hheld⟩ := run_holdsResult x.after rest hhold hup hafter
  refine ⟨v, ?run, hvp, hheld⟩
  case run =>
    calc core.run x.script.length s
        = core.run (x.before.length + (x.after.length + 1)) s := by simp [Transaction.script]
      _ = core.run (x.after.length + 1) t := hrun _
      _ = core.run (x.after.length + 0) u := run_of_step hclose
      _ = .next v := hwait 0

/-! ### What a closed window presents -/

/-- A window that fits is presented as `decode` of its bytes (R23, R95). -/
theorem Holding.outputs_of_fits {p : Params} {b : List Byte} {ts te : Nat} {s : State} {r : FrameResult Nat}
    (h : Holding p b ts te s) (hfit : b.length ≤ p.maxLen) (hr : decodeWindow b ts te = .ok r) (rd : Nat) :
    s.outputs rd = .ok (outputsOf true (some (.result r)) rd) := by
  obtain ⟨hd, rfl, rfl, hb⟩ := h
  have hovf : s.ovf = false := by
    rw [Bool.eq_false_iff, ne_eq, hb.ovf]
    omega
  exact State.outputs_hold hd hovf (hb.window hfit) hr rd

/-- A longer window is refused (R95, R108). -/
theorem Holding.outputs_of_overflow {p : Params} {b : List Byte} {ts te : Nat} {s : State} (h : Holding p b ts te s)
    (hover : p.maxLen < b.length) (rd : Nat) : s.outputs rd = .ok Outputs.overflow := by
  obtain ⟨hd, -, -, hb⟩ := h
  exact State.outputs_overflow hd (hb.ovf.mpr hover) rd

/-- Settles O44: by induction over the cycles the buffer holds the bytes delivered, the closing beat latches its markers and HOLD keeps
both, so the output function reads from the state what `decode` is given. -/
theorem transactionRefinesDecode : Obligations.TransactionRefinesDecode := by
  unfold Obligations.TransactionRefinesDecode
  intro s x rest hs hp hx
  obtain ⟨t, hrun, hrest, hhold⟩ := run_transaction hs hp hx
  refine ⟨t, hrun, hrest, hhold.hold, fun hfit => ?fits, hhold.outputs_of_overflow⟩
  case fits =>
    obtain ⟨r, hr⟩ := decodeWindow_answers x.bytes x.closing.inTs x.closing.inTe
    exact ⟨r, hr, hhold.outputs_of_fits hfit hr⟩

/-- Two closed windows with the same bytes and markers, in blocks with the same parameters, present the same outputs (R96). -/
theorem Holding.outputs_eq {p : Params} {b : List Byte} {ts te : Nat} {s s' : State} (h : Holding p b ts te s)
    (h' : Holding p b ts te s') (rd : Nat) : s.outputs rd = s'.outputs rd := by
  rcases Nat.lt_or_ge p.maxLen b.length with hover | hfit
  · rw [h.outputs_of_overflow hover, h'.outputs_of_overflow hover]
  · obtain ⟨r, hr⟩ := decodeWindow_answers b ts te
    rw [h.outputs_of_fits hfit hr, h'.outputs_of_fits hfit hr]

/-- Settles O45: both runs end in HOLD of the same bytes and markers, and nothing else of the state reaches the outputs. -/
theorem windowsAreIsolated : Obligations.WindowsAreIsolated := by
  unfold Obligations.WindowsAreIsolated
  intro s s' x x' rest rest' t t' hs hs' hparams hp hp' hx hx' hbytes hts hte hrun hrun' rd
  obtain ⟨u, hu, -, hhold⟩ := run_transaction hs hp hx
  obtain ⟨u', hu', -, hhold'⟩ := run_transaction hs' hp' hx'
  obtain rfl : u = t := Host.Outcome.next.inj (hu.symm.trans hrun)
  obtain rfl : u' = t' := Host.Outcome.next.inj (hu'.symm.trans hrun')
  rw [← hparams, ← hbytes, ← hts, ← hte] at hhold'
  exact hhold.outputs_eq hhold' rd

end Sys2Proof.Machine
end

section
/-! PROOFS. The cause of each rejection (spec/60_exceptions.md rules R102, R104 to R107, R111). -/

namespace Sys2Proof.Machine

/-- The cause that R104 to R107 give for a rejection, in terms of the window's three marker bytes. The rejections of the length checks
have no cause among the markers. -/
def MarkerCause (b0 tagEof post : Byte) : DecodeError → Prop
  | .badPreamble => hi b0 ≠ 0xF#4
  | .badStartMarker => hi b0 = 0xF#4 ∧ lo b0 ≠ 0x9#4
  | .badEndMarker => b0 = 0xF9#8 ∧ lo tagEof ≠ 0x6#4
  | .badPostamble => b0 = 0xF9#8 ∧ lo tagEof = 0x6#4 ∧ hi post ≠ 0xF#4
  | .tooShort => False
  | .negativeDataLength => False

/-- The first byte is `0xF9` exactly when it has both of its markers. -/
theorem eq_0xF9_iff {b : Byte} : b = 0xF9#8 ↔ hi b = 0xF#4 ∧ lo b = 0x9#4 := by
  refine ⟨fun h => ?_, fun ⟨hhi, hlo⟩ => ?_⟩
  · rw [h]
    decide
  · rw [← hi_append_lo b, hhi, hlo]
    rfl

/-- The verdict on the markers names a rejection exactly when its cause holds: the first wrong marker is the one reported (R110). -/
theorem markerVerdict_eq_some {b0 tagEof post : Byte} {e : DecodeError} :
    markerVerdict b0 tagEof post = some e ↔ MarkerCause b0 tagEof post e := by
  refine ⟨fun h => ?cause, fun h => ?verdict⟩
  case cause =>
    unfold markerVerdict at h
    split_ifs at h with h0 h1 h2 h3 <;> cases h
    · exact h0
    · exact ⟨not_not.mp h0, h1⟩
    · exact ⟨eq_0xF9_iff.mpr ⟨not_not.mp h0, not_not.mp h1⟩, h2⟩
    · exact ⟨eq_0xF9_iff.mpr ⟨not_not.mp h0, not_not.mp h1⟩, not_not.mp h2, h3⟩
  case verdict =>
    cases e with
    | badPreamble => exact markerVerdict_badPreamble h tagEof post
    | badStartMarker =>
      obtain ⟨hhi, hlo⟩ := h
      exact markerVerdict_badStartMarker hhi hlo tagEof post
    | badEndMarker =>
      obtain ⟨hfirst, heof⟩ := h
      obtain ⟨hhi, hlo⟩ := eq_0xF9_iff.mp hfirst
      exact markerVerdict_badEndMarker hhi hlo heof post
    | badPostamble =>
      obtain ⟨hfirst, heof, hpostamble⟩ := h
      obtain ⟨hhi, hlo⟩ := eq_0xF9_iff.mp hfirst
      exact markerVerdict_badPostamble hhi hlo heof hpostamble
    | tooShort => exact h.elim
    | negativeDataLength => exact h.elim

/-- A window in parts is rejected exactly for the cause in its marker bytes. -/
theorem WindowParts.decodeWindow_bytes_eq_reject_iff_cause {T : Type} {p : WindowParts} {e : DecodeError} {ts te : T} :
    decodeWindow p.bytes ts te = .ok (.reject e) ↔ MarkerCause p.b0 p.tagEof p.post e :=
  decodeWindow_bytes_eq_reject.trans markerVerdict_eq_some

/-- The number of data words in terms of the window's type and length (R62). -/
theorem WindowParts.words_length (p : WindowParts) :
    p.words.length = if typeCode p.b1 = 0#3 then 0 else p.bytes.length - 6 := by
  split
  · next hping => rw [p.words_of_ping hping, List.length_nil]
  · next hother => rw [p.bytes_length, p.tail_of_not_ping hother, List.length_nil, Nat.add_zero, Nat.add_sub_cancel]

/-- A window of at least six bytes is rejected exactly for the cause in the bytes at the offsets 0, `HDR_LEN + N + 1` and
`HDR_LEN + N + 2`. -/
theorem decodeWindow_eq_reject_iff_cause {T : Type} {b : List Byte} {b0 b1 tagEof post : Byte} {n : Nat} (hlen : 6 ≤ b.length)
    (hb0 : b[0]? = some b0) (hb1 : b[1]? = some b1) (hn : n = if typeCode b1 = 0#3 then 0 else b.length - 6)
    (htag : b[3 + n + 1]? = some tagEof) (hpost : b[3 + n + 2]? = some post) (e : DecodeError) (ts te : T) :
    decodeWindow b ts te = .ok (.reject e) ↔ MarkerCause b0 tagEof post e := by
  rcases WindowParts.short_or_bytes b with hshort | ⟨p, rfl⟩
  · omega
  · obtain rfl : p.b0 = b0 := Option.some.inj hb0
    obtain rfl : p.b1 = b1 := Option.some.inj hb1
    obtain rfl : n = p.words.length := hn.trans p.words_length.symm
    obtain rfl : p.tagEof = tagEof := Option.some.inj (p.getElem?_tagEof.symm.trans htag)
    obtain rfl : p.post = post := Option.some.inj (p.getElem?_post.symm.trans hpost)
    exact WindowParts.decodeWindow_bytes_eq_reject_iff_cause

/-- A window that repeats one byte has it in all three marker bytes. -/
theorem decodeWindow_replicate_eq_reject {T : Type} {n : Nat} (hn : 6 ≤ n) (v : Byte) (e : DecodeError) (ts te : T) :
    decodeWindow (List.replicate n v) ts te = .ok (.reject e) ↔ MarkerCause v v v e := by
  rcases WindowParts.short_or_bytes (List.replicate n v) with hshort | ⟨p, hp⟩
  · rw [List.length_replicate] at hshort
    omega
  · have hall : ∀ x ∈ p.bytes, x = v := fun x hx => List.eq_of_mem_replicate (hp ▸ hx)
    have hfirst : p.b0 = v := hall _ (List.mem_of_getElem? (i := 0) rfl)
    have htag : p.tagEof = v := hall _ (List.mem_of_getElem? p.getElem?_tagEof)
    have hpost : p.post = v := hall _ (List.mem_of_getElem? p.getElem?_post)
    rw [hp, WindowParts.decodeWindow_bytes_eq_reject_iff_cause, hfirst, htag, hpost]

/-- Settles O20: the length check alone answers `TooShort`; of a longer window the result is the verdict on the marker bytes, which
names a rejection exactly when its cause holds, and windows of one repeated byte have that byte for each marker byte. -/
theorem eachRejectionHasItsCause : Obligations.EachRejectionHasItsCause := by
  unfold Obligations.EachRejectionHasItsCause
  intro T ts te
  refine ⟨fun b => decodeWindow_eq_tooShort b ts te, ?causes, fun n hn => ?allZeros, fun n hn => ?allOnes⟩
  case causes =>
    intro b b0 b1 tagEof post hlen hb0 hb1 n htag hpost
    have hcause (e : DecodeError) : decodeWindow b ts te = .ok (.reject e) ↔ MarkerCause b0 tagEof post e :=
      decodeWindow_eq_reject_iff_cause hlen hb0 hb1 rfl htag hpost e ts te
    exact ⟨hcause .badPreamble, hcause .badStartMarker, hcause .badEndMarker, hcause .badPostamble⟩
  case allZeros =>
    have hpreamble : hi 0x00#8 ≠ 0xF#4 := by decide
    exact (decodeWindow_replicate_eq_reject hn 0x00#8 .badPreamble ts te).mpr hpreamble
  case allOnes =>
    have hsof : hi 0xFF#8 = 0xF#4 ∧ lo 0xFF#8 ≠ 0x9#4 := by decide
    exact (decodeWindow_replicate_eq_reject hn 0xFF#8 .badStartMarker ts te).mpr hsof

end Sys2Proof.Machine
end

section
/-! PROOFS. The encoder and the row decoder are inverse to each other (spec/30_encoding.md sections 1, 3, 5 and 6). -/

namespace Sys2Proof.Machine

/-! ### Frame rows: the window of a row and the row of a window -/

/-- The window of R39: header, data words, trailer, and what stands after the frame. -/
def frameWindow (code : BitVec 3) (rsv : BitVec 5) (user : Byte) (words : List Byte) (t : Trailer) (tail : List Byte) : List Byte :=
  encodeHeader code rsv user ++ words ++ encodeTrailer t ++ tail

/-- The window of a row written byte by byte. -/
theorem frameWindow_eq (code : BitVec 3) (rsv : BitVec 5) (user : Byte) (words : List Byte) (t : Trailer) (tail : List Byte) :
    frameWindow code rsv user words t tail =
      (0xF#4 ++ 0x9#4) :: (code ++ rsv) :: user :: (words ++ t.crc :: (t.tag ++ t.eof) :: (t.postamble ++ t.pad) :: tail) := by
  simp [frameWindow, encodeHeader, encodeTrailer]

/-- The trailer's fields are read back from its bytes (R44). -/
theorem trailerOf_fields (t : Trailer) : trailerOf t.crc (t.tag ++ t.eof) (t.postamble ++ t.pad) = t := by
  simp only [trailerOf, hi_append, lo_append]

/-- The row with a code of 4 to 7 is `UNKNOWN` (R48, R50). -/
theorem frameRow_unknown {raw : BitVec 3} (h : 4 ≤ raw.toNat) (rsv : BitVec 5) (user : Byte) (words : List Byte) (t : Trailer)
    (tail : List Byte) : frameRow raw rsv user words t tail = .unknown raw rsv user words t := by
  have hknown : raw ≠ 0#3 ∧ raw ≠ 1#3 ∧ raw ≠ 2#3 ∧ raw ≠ 3#3 := by revert raw; decide
  obtain ⟨h0, h1, h2, h3⟩ := hknown
  simp only [frameRow, if_neg h0, if_neg h1, if_neg h2, if_neg h3]

/-- A code is one of the four known ones, or 4 to 7 (R46). -/
theorem typeCode_known_or_unknown (code : BitVec 3) :
    code = 0#3 ∨ code = 1#3 ∨ code = 2#3 ∨ code = 3#3 ∨ 4 ≤ code.toNat := by
  revert code
  decide

/-- A row is encoded as its window, if it has no words as a Ping and no tail as another (R40). -/
theorem encode_frameRow {code : BitVec 3} {words tail : List Byte} (hping : code = 0#3 → words = [])
    (hother : code ≠ 0#3 → tail = []) (rsv : BitVec 5) (user : Byte) (t : Trailer) :
    encode (frameRow code rsv user words t tail) = .window (frameWindow code rsv user words t tail) := by
  by_cases h0 : code = 0#3
  · rw [hping h0, h0, frameWindow, List.append_nil]
    rfl
  · rw [hother h0, frameWindow, List.append_nil]
    rcases typeCode_known_or_unknown code with rfl | rfl | rfl | rfl | h
    · exact absurd rfl h0
    · rfl
    · rfl
    · rfl
    · rw [frameRow_unknown h]
      rfl

/-- The window of a row decodes to the row, whatever its trailer's markers (log 8). -/
theorem decodeFrame_frameWindow {code : BitVec 3} {words tail : List Byte}
    (hn : dataWordCount code (words.length + tail.length + 6) = .ok words.length) (rsv : BitVec 5) (user : Byte) (t : Trailer) :
    decodeFrame (frameWindow code rsv user words t tail) = .ok (frameRow code rsv user words t tail) := by
  rw [frameWindow_eq, decodeFrame_parts _ _ _ _ _ _ _ _ (by rwa [typeCode_append]), trailerOf_fields, typeCode_append,
    reservedBits_append, hi_append, lo_append]
  rfl

namespace WindowParts

/-- The row that the header of the parts selects, with its fields. -/
def row (p : WindowParts) : Instr :=
  frameRow (typeCode p.b1) (reservedBits p.b1) p.user p.words (trailerOf p.crc p.tagEof p.post) p.tail

/-- The row decoder checks byte 0 and answers the row of the parts. -/
theorem decodeFrame_bytes (p : WindowParts) :
    decodeFrame p.bytes =
      if hi p.b0 ≠ 0xF#4 then .error .badPreamble else if lo p.b0 ≠ 0x9#4 then .error .badStartMarker else .ok p.row :=
  decodeFrame_parts _ _ _ _ _ _ _ _ p.counted

/-- A window in parts selects a row exactly when its byte 0 is `0xF9`, and then the row of the parts. -/
theorem decodeFrame_bytes_eq_ok {p : WindowParts} {i : Instr} : decodeFrame p.bytes = .ok i ↔ p.b0 = 0xF9#8 ∧ p.row = i := by
  rw [decodeFrame_bytes, eq_0xF9_iff]
  split_ifs with hpreamble hsof <;> simp_all

/-- A window in parts that selects no row is rejected for its byte 0, as the verdict on the markers says. -/
theorem decodeFrame_bytes_eq_error {p : WindowParts} {e : DecodeError} :
    decodeFrame p.bytes = .error e ↔
      hi p.b0 ≠ 0xF#4 ∧ e = .badPreamble ∨ hi p.b0 = 0xF#4 ∧ lo p.b0 ≠ 0x9#4 ∧ e = .badStartMarker := by
  rw [decodeFrame_bytes]
  split_ifs with hpreamble hsof <;> simp_all [eq_comm]

/-- The row of the parts encodes to the window of the parts, if byte 0 is the one that every row has. -/
theorem encode_row {p : WindowParts} (h : p.b0 = 0xF9#8) : encode p.row = .window p.bytes := by
  rw [row, encode_frameRow p.words_of_ping p.tail_of_not_ping, frameWindow_eq, bytes, h]
  simp only [trailerOf, hi_append_lo, typeCode_append_reservedBits]
  rfl

end WindowParts

/-! ### Control words -/

/-- The dispatch of R85 on the six bits of a control word. -/
theorem decodeControl_controlBits (r d v k l a : Bool) :
    decodeControl (controlBits r d v k l a) =
      if r then .reset d v k l a
      else if d then (if a then .portAck v k l else .hold v k l)
      else if v then (if k then (if l then .appendClose a else .append a) else (if l then .close a else .null a))
      else .idle k l a := by
  revert r d v k l a
  decide

/-- Every control word is its six bits. -/
theorem exists_controlBits (c : BitVec 6) : ∃ r d v k l a, c = controlBits r d v k l a :=
  ⟨c.getLsbD 5, c.getLsbD 4, c.getLsbD 3, c.getLsbD 2, c.getLsbD 1, c.getLsbD 0, by revert c; decide⟩

/-- The operation of a control word encodes to that word: every bit is in the pattern or an operand (R54). -/
theorem encode_decodeControl (c : BitVec 6) : encode (decodeControl c) = .control c := by
  revert c
  decide

/-! ### The statements -/

/-- Settles O1: six closed words, each evaluated by the decoder. -/
theorem writtenOutWordsDecode : Obligations.WrittenOutWordsDecode := by
  unfold Obligations.WrittenOutWordsDecode
  refine ⟨?ping, ?data, ?unknown, ?append, ?hold, ?reset⟩ <;> decide

/-- Decoding gives back an encoded Ping, whatever stands behind it. -/
theorem decode_encode_ping (rsv : BitVec 5) (user : Byte) (t : Trailer) (tail : List Byte) :
    decode (encode (.ping rsv user t tail)) = .ok (.ping rsv user t tail) :=
  (congrArg decode (encode_frameRow (code := 0#3) (fun _ => rfl) (fun h => absurd rfl h) rsv user t)).trans
    (decodeFrame_frameWindow (dataWordCount_ping _) rsv user t)

/-- Decoding gives back an encoded row of format V. -/
theorem decode_encode_formatV {code : BitVec 3} (hcode : code ≠ 0#3) (rsv : BitVec 5) (user : Byte) (words : List Byte)
    (t : Trailer) :
    decode (encode (frameRow code rsv user words t [])) = .ok (frameRow code rsv user words t []) := by
  rw [encode_frameRow (fun h => absurd h hcode) (fun _ => rfl)]
  exact decodeFrame_frameWindow (dataWordCount_of_le hcode (by omega)) rsv user t

/-- Settles O2: a frame row's window has as many data words as its type and length say, so the decoder splits it where the encoder
joined it; a control word carries every don't-care bit. -/
theorem decodeAfterEncode : Obligations.DecodeAfterEncode := by
  unfold Obligations.DecodeAfterEncode
  intro i hraw
  cases i with
  | ping rsv user t tail => exact decode_encode_ping rsv user t tail
  | data rsv user words t => exact decode_encode_formatV (code := 1#3) (by decide) rsv user words t
  | frameAck rsv user words t => exact decode_encode_formatV (code := 2#3) (by decide) rsv user words t
  | nak rsv user words t => exact decode_encode_formatV (code := 3#3) (by decide) rsv user words t
  | unknown raw rsv user words t =>
    have h4 : 4 ≤ raw.toNat := hraw raw rsv user words t rfl
    have hcode : raw ≠ 0#3 := by rintro rfl; exact absurd h4 (by decide)
    simpa only [frameRow_unknown h4] using decode_encode_formatV hcode rsv user words t
  | reset d v k l a => exact congrArg Except.ok (decodeControl_controlBits true d v k l a)
  | idle k l a => exact congrArg Except.ok (decodeControl_controlBits false false false k l a)
  | null a => exact congrArg Except.ok (decodeControl_controlBits false false true false false a)
  | append a => exact congrArg Except.ok (decodeControl_controlBits false false true true false a)
  | close a => exact congrArg Except.ok (decodeControl_controlBits false false true false true a)
  | appendClose a => exact congrArg Except.ok (decodeControl_controlBits false false true true true a)
  | hold v k l => exact congrArg Except.ok (decodeControl_controlBits false true v k l false)
  | portAck v k l => exact congrArg Except.ok (decodeControl_controlBits false true v k l true)

/-- Settles O3: a window that selects a row has the parts of that row, whose nibbles joined are the window's bytes again; the control
words are 64. -/
theorem encodeAfterDecode : Obligations.EncodeAfterDecode := by
  unfold Obligations.EncodeAfterDecode
  intro c i h
  cases c with
  | window b =>
    change decodeFrame b = .ok i at h
    rcases WindowParts.short_or_bytes b with hshort | ⟨p, rfl⟩
    · simp [decodeFrame_short hshort] at h
    · obtain ⟨hfirst, rfl⟩ := WindowParts.decodeFrame_bytes_eq_ok.mp h
      exact WindowParts.encode_row hfirst
  | control c =>
    obtain rfl : decodeControl c = i := Except.ok.inj h
    exact encode_decodeControl c

/-- The window of a row with right markers is the constructed frame (R56), followed by the row's tail (R55). -/
theorem frameWindow_eq_frameBytes (code : BitVec 3) (rsv : BitVec 5) (user : Byte) (words : List Byte) (crc : Byte)
    (tag pad : Nibble) (tail : List Byte) :
    frameWindow code rsv user words ⟨crc, tag, 0x6#4, 0xF#4, pad⟩ tail = frameBytes code rsv user words crc tag pad ++ tail := by
  rw [frameWindow_eq, frameBytes_eq]
  simp

/-- Settles O4: each row's window is the constructor's, field by field. -/
theorem frameRowsEncodeAsTheConstructor : Obligations.FrameRowsEncodeAsTheConstructor := by
  unfold Obligations.FrameRowsEncodeAsTheConstructor
  intro rsv user words crc tag pad t
  have hv (code : BitVec 3) : encodeHeader code rsv user ++ words ++ encodeTrailer t = frameBytes code rsv user words crc tag pad := by
    simpa [frameWindow] using frameWindow_eq_frameBytes code rsv user words crc tag pad []
  refine ⟨fun tail => ?ping, congrArg Code.window (hv _), congrArg Code.window (hv _), congrArg Code.window (hv _),
    fun raw => congrArg Code.window (hv raw), fun code => ?length⟩
  case ping =>
    simpa [frameWindow, encode] using frameWindow_eq_frameBytes 0#3 rsv user [] crc tag pad tail
  case length =>
    simp only [frameBytes, List.length_append, List.length_cons, List.length_nil]
    omega

/-- Settles O5: every control word is its six bits, on which both the masks and the dispatch are decided. -/
theorem controlWordSelectsItsRow : Obligations.ControlWordSelectsItsRow := by
  unfold Obligations.ControlWordSelectsItsRow
  intro c
  obtain ⟨r, d, v, k, l, a, rfl⟩ := exists_controlBits c
  rw [decodeControl_controlBits]
  revert r d v k l a
  decide

/-- Settles O6: the control word is formed from the ports and `DONE`, and its dispatch is that of R85. -/
theorem portBitsSelectThePortOperation : Obligations.PortBitsSelectThePortOperation := by
  unfold Obligations.PortBitsSelectThePortOperation
  intro s p
  change decodeControl (controlBits p.rst s.done p.inValid p.inKeep p.inLast p.outReady) = _
  rw [decodeControl_controlBits]
  cases p.rst with
  | true => rfl
  | false =>
    cases s.done with
    | true => cases p.outReady <;> rfl
    | false =>
      cases p.inValid with
      | false => rfl
      | true => cases p.inKeep <;> cases p.inLast <;> rfl

/-- Settles O8: there are eight codes, and the variants are the four known ones and `Unknown` with four of them. -/
theorem frameTypeCodesAreABijection : Obligations.FrameTypeCodesAreABijection := by
  unfold Obligations.FrameTypeCodesAreABijection
  refine ⟨by decide, fun t ht => ?ofType, rfl, rfl, rfl, rfl, by decide⟩
  case ofType =>
    cases t with
    | ping => rfl
    | data => rfl
    | ack => rfl
    | nak => rfl
    | unknown raw =>
      revert raw
      decide

end Sys2Proof.Machine
end

section
/-! PROOFS. Which header word selects which frame row (spec/30_encoding.md section 3). -/

namespace Sys2Proof.Machine

/-- A mask of the header word that has all bits of byte 0 checks that byte and masks byte 1 (R48). -/
theorem headerWord_mask_iff (b0 b1 : Byte) {mask word m x : Nat} (hmask : mask = 0xFF * 2 ^ 8 + m) (hword : word = 0xF9 * 2 ^ 8 + x)
    (hm : m < 256) (hx : x < 256) :
    b0.toNat * 256 + b1.toNat &&& mask = word ↔ b0 = 0xF9#8 ∧ b1.toNat &&& m = x := by
  generalize hw : b0.toNat * 256 + b1.toNat &&& mask = w
  have h1 : b1.toNat < 256 := b1.isLt
  have hhigh : w / 2 ^ 8 = b0.toNat := by
    rw [← hw, Nat.and_div_two_pow, show (b0.toNat * 256 + b1.toNat) / 2 ^ 8 = b0.toNat by omega,
      show mask / 2 ^ 8 = 2 ^ 8 - 1 by omega, Nat.and_two_pow_sub_one_eq_mod, Nat.mod_eq_of_lt b0.isLt]
  have hlow : w % 2 ^ 8 = b1.toNat &&& m := by
    rw [← hw, Nat.and_mod_two_pow, show (b0.toNat * 256 + b1.toNat) % 2 ^ 8 = b1.toNat by omega,
      show mask % 2 ^ 8 = m by omega]
  rw [← BitVec.toNat_inj, show (0xF9#8).toNat = 0xF9 from rfl]
  omega

/-- The masked byte 1 is a known row's type code in place, or it has the bit of the codes 4 to 7. -/
theorem typeByte_mask_iff (b1 : Byte) :
    (b1.toNat &&& 0xE0 = 0x00 ↔ typeCode b1 = 0#3) ∧ (b1.toNat &&& 0xE0 = 0x20 ↔ typeCode b1 = 1#3) ∧
    (b1.toNat &&& 0xE0 = 0x40 ↔ typeCode b1 = 2#3) ∧ (b1.toNat &&& 0xE0 = 0x60 ↔ typeCode b1 = 3#3) ∧
    (b1.toNat &&& 0x80 = 0x80 ↔ 4 ≤ (typeCode b1).toNat) := by
  revert b1
  decide

/-- A type code selects one row: the known codes their rows, the codes 4 to 7 `UNKNOWN` (R46, R48). -/
theorem frameRow_kind (code : BitVec 3) (rsv : BitVec 5) (user : Byte) (words : List Byte) (t : Trailer) (tail : List Byte) :
    (code = 0#3 ↔ ∃ rsv' user' t' tail', frameRow code rsv user words t tail = .ping rsv' user' t' tail') ∧
    (code = 1#3 ↔ ∃ rsv' user' words' t', frameRow code rsv user words t tail = .data rsv' user' words' t') ∧
    (code = 2#3 ↔ ∃ rsv' user' words' t', frameRow code rsv user words t tail = .frameAck rsv' user' words' t') ∧
    (code = 3#3 ↔ ∃ rsv' user' words' t', frameRow code rsv user words t tail = .nak rsv' user' words' t') ∧
    (4 ≤ code.toNat ↔ ∃ raw rsv' user' words' t', frameRow code rsv user words t tail = .unknown raw rsv' user' words' t') := by
  rcases typeCode_known_or_unknown code with rfl | rfl | rfl | rfl | h
  case inr.inr.inr.inr =>
    have hne : code ≠ 0#3 ∧ code ≠ 1#3 ∧ code ≠ 2#3 ∧ code ≠ 3#3 := by revert code; decide
    simp [frameRow_unknown h, h, hne]
  all_goals simp [frameRow]

/-- The row decoder answers a rejection of byte 0 exactly when that is not `0xF9`. -/
theorem WindowParts.decodeFrame_bytes_eq_headerError (p : WindowParts) :
    decodeFrame p.bytes = .error .badPreamble ∨ decodeFrame p.bytes = .error .badStartMarker ↔ ¬ p.b0 = 0xF9#8 := by
  rw [eq_0xF9_iff, p.decodeFrame_bytes]
  split_ifs with hpreamble hsof <;> simp_all

/-- Settles O7: a window of at least 6 bytes has parts, whose row is selected when byte 0 is `0xF9`; the masks check byte 0 and the
type code, and the type code names the row. -/
theorem headerWordSelectsTheFrameRow : Obligations.HeaderWordSelectsTheFrameRow := by
  unfold Obligations.HeaderWordSelectsTheFrameRow
  intro b0 b1 rest hlen h b
  rcases WindowParts.short_or_bytes b with hshort | ⟨p, hp⟩
  · simp only [b, List.length_cons] at hshort
    omega
  · obtain ⟨rfl, hp'⟩ : b0 = p.b0 ∧ b1 :: rest = p.b1 :: _ := List.cons.inj hp
    obtain ⟨rfl, -⟩ := List.cons.inj hp'
    obtain ⟨m0, m1, m2, m3, m4⟩ := typeByte_mask_iff p.b1
    obtain ⟨k0, k1, k2, k3, k4⟩ : _ ∧ _ ∧ _ ∧ _ ∧ _ :=
      frameRow_kind (typeCode p.b1) (reservedBits p.b1) p.user p.words (trailerOf p.crc p.tagEof p.post) p.tail
    have typeMask {word : Nat} (x : Nat) (hword : word = 0xF9 * 2 ^ 8 + x) (hx : x < 256) :
        h &&& 0xFFE0 = word ↔ p.b0 = 0xF9#8 ∧ p.b1.toNat &&& 0xE0 = x :=
      headerWord_mask_iff p.b0 p.b1 rfl hword (by decide) hx
    rw [hp]
    simp only [WindowParts.decodeFrame_bytes_eq_ok, exists_and_left]
    refine ⟨?ping, ?data, ?ack, ?nak, ?unknown, ?none⟩
    case ping => exact (typeMask 0x00 rfl (by decide)).trans (and_congr_right' (m0.trans k0))
    case data => exact (typeMask 0x20 rfl (by decide)).trans (and_congr_right' (m1.trans k1))
    case ack => exact (typeMask 0x40 rfl (by decide)).trans (and_congr_right' (m2.trans k2))
    case nak => exact (typeMask 0x60 rfl (by decide)).trans (and_congr_right' (m3.trans k3))
    case unknown =>
      exact (headerWord_mask_iff p.b0 p.b1 (m := 0x80) rfl rfl (by decide) (by decide)).trans (and_congr_right' (m4.trans k4))
    case none =>
      have hb1 : p.b1.toNat < 256 := p.b1.isLt
      have hdiv : h / 256 = p.b0.toNat := by omega
      have hfirst : p.b0.toNat = 0xF9 ↔ p.b0 = 0xF9#8 := BitVec.toNat_inj (y := 0xF9#8)
      rw [hdiv, ne_eq, hfirst]
      exact p.decodeFrame_bytes_eq_headerError.symm

end Sys2Proof.Machine
end

section
/-! PROOFS. `FrameDecoder.decode` in closed form (spec/40_frame_decode.md rule R59), and the width of a length (spec/00_scope.md rule
R6). -/

namespace Sys2Proof.Machine

/-- Settles O9: every window has a result, one rejection or a frame that carries the markers. -/
theorem decodeReadsOnlyInsideTheWindow : Obligations.DecodeReadsOnlyInsideTheWindow := by
  unfold Obligations.DecodeReadsOnlyInsideTheWindow
  exact fun T b ts te => decodeWindow_answers b ts te

/-! The fields of a byte as numbers (R8). -/

theorem toNat_hi (b : Byte) : (hi b).toNat = b.toNat / 16 := by revert b; decide
theorem toNat_lo (b : Byte) : (lo b).toNat = b.toNat % 16 := by revert b; decide
theorem toNat_typeCode (b : Byte) : (typeCode b).toNat = b.toNat / 32 := by revert b; decide

theorem hi_eq_iff (b : Byte) (m : Nibble) : hi b = m ↔ b.toNat / 16 = m.toNat := by rw [← toNat_hi, BitVec.toNat_inj]
theorem lo_eq_iff (b : Byte) (m : Nibble) : lo b = m ↔ b.toNat % 16 = m.toNat := by rw [← toNat_lo, BitVec.toNat_inj]

/-- The delivered tag is the number of the high nibble (R45). -/
theorem frameTagOf_hi (b : Byte) : frameTagOf (hi b) = BitVec.ofNat 8 (b.toNat / 16) := by revert b; decide

/-- The result of a window as one conditional over its marker bytes as numbers, in the order of R64. -/
theorem resultOfVerdict_markerVerdict {T : Type} (b0 tagEof post : Byte) (f : DecodedFrame T) :
    resultOfVerdict (markerVerdict b0 tagEof post) f =
      if b0.toNat / 16 ≠ 15 then .reject .badPreamble
      else if b0.toNat % 16 ≠ 9 then .reject .badStartMarker
      else if tagEof.toNat % 16 ≠ 6 then .reject .badEndMarker
      else if post.toNat / 16 ≠ 15 then .reject .badPostamble
      else .ok f := by
  have hpreamble : hi b0 = 0xF#4 ↔ b0.toNat / 16 = 15 := hi_eq_iff b0 _
  have hsof : lo b0 = 0x9#4 ↔ b0.toNat % 16 = 9 := lo_eq_iff b0 _
  have heof : lo tagEof = 0x6#4 ↔ tagEof.toNat % 16 = 6 := lo_eq_iff tagEof _
  have hpostamble : hi post = 0xF#4 ↔ post.toNat / 16 = 15 := hi_eq_iff post _
  simp only [markerVerdict, ne_eq, hpreamble, hsof, heof, hpostamble]
  split_ifs <;> rfl

namespace WindowParts

/-! The bytes of the parts at the offsets of R44, counted from the number of data words. -/

theorem getD_crc (p : WindowParts) : p.bytes.getD (p.words.length + 3) 0#8 = p.crc := by
  simp [bytes]

theorem getD_tagEof (p : WindowParts) : p.bytes.getD (p.words.length + 4) 0#8 = p.tagEof := by
  simp [bytes]

theorem getD_post (p : WindowParts) : p.bytes.getD (p.words.length + 5) 0#8 = p.post := by
  simp [bytes]

theorem take_drop_words (p : WindowParts) : (p.bytes.drop 3).take p.words.length = p.words := by
  simp [bytes]

/-- The number of data words with the type code as a number (R62). -/
theorem words_length_toNat (p : WindowParts) :
    (if p.b1.toNat / 32 = 0 then 0 else p.bytes.length - 6) = p.words.length := by
  rw [p.words_length, ← toNat_typeCode]
  exact if_congr (BitVec.toNat_inj (y := 0#3)) rfl rfl

end WindowParts

/-- Settles O21: the window is too short, or it has parts, which are its bytes at the offsets of R44. -/
theorem decodeInClosedForm : Obligations.DecodeInClosedForm := by
  unfold Obligations.DecodeInClosedForm
  intro T b ts te byteAt code n
  rcases WindowParts.short_or_bytes b with hshort | ⟨p, rfl⟩
  · rw [decodeWindow_short hshort, if_pos hshort]
  · have hlong : ¬ p.bytes.length < 6 := by rw [p.bytes_length]; omega
    have hn : n = p.words.length := p.words_length_toNat
    have hcode : BitVec.ofNat 3 code = typeCode p.b1 := by
      rw [show code = (typeCode p.b1).toNat from (toNat_typeCode p.b1).symm, BitVec.ofNat_toNat, BitVec.setWidth_eq]
    have hcrc : byteAt (n + 3) = p.crc := by rw [hn]; exact p.getD_crc
    have htag : byteAt (n + 4) = p.tagEof := by rw [hn]; exact p.getD_tagEof
    have hpost : byteAt (n + 5) = p.post := by rw [hn]; exact p.getD_post
    have hwords : (p.bytes.drop 3).take n = p.words := by rw [hn]; exact p.take_drop_words
    rw [if_neg hlong, hcode, hcrc, htag, hpost, hwords, p.decodeWindow_bytes, WindowParts.verdict,
      resultOfVerdict_markerVerdict, WindowParts.frame, frameOfParts, frameTagOf_hi]
    rfl

/-- Settles O25: `LW` is one more than the logarithm of `MAXLEN`, which is positive. -/
theorem lenWidthIsLeast : Obligations.LenWidthIsLeast := by
  unfold Obligations.LenWidthIsLeast
  intro p hvalid
  refine ⟨maxLen_lt_two_pow_lenWidth p, fun k hk => ?least⟩
  case least =>
    have hpos : p.maxLen ≠ 0 := by
      simp only [Params.valid, Bool.and_eq_true, decide_eq_true_eq] at hvalid
      omega
    exact (Nat.log2_lt hpos).mpr hk

end Sys2Proof.Machine
end

section
/-! PROOFS. The meaning of each instruction, what the frame rows present (spec/40_frame_decode.md section 2, spec/10_state.md section 6),
and that they compute `decode` (spec/40_frame_decode.md section 1). -/

namespace Sys2Proof.Machine

/-! ### The meaning of each instruction -/

@[simp] theorem exec_ping (rsv user t tail) (s : State) :
    exec (.ping rsv user t tail) s = .next (s.present (frameResult .ping user [] t s.ts s.te)) := rfl
@[simp] theorem exec_data (rsv user words t) (s : State) :
    exec (.data rsv user words t) s = .next (s.present (frameResult .data user words t s.ts s.te)) := rfl
@[simp] theorem exec_frameAck (rsv user words t) (s : State) :
    exec (.frameAck rsv user words t) s = .next (s.present (frameResult .ack user words t s.ts s.te)) := rfl
@[simp] theorem exec_nak (rsv user words t) (s : State) :
    exec (.nak rsv user words t) s = .next (s.present (frameResult .nak user words t s.ts s.te)) := rfl
@[simp] theorem exec_unknown (raw rsv user words t) (s : State) :
    exec (.unknown raw rsv user words t) s = .next (s.present (frameResult (.unknown raw) user words t s.ts s.te)) := rfl
@[simp] theorem exec_idle (k l a) (s : State) : exec (.idle k l a) s = .next s := rfl
@[simp] theorem exec_null (a) (s : State) : exec (.null a) s = .next s := rfl
@[simp] theorem exec_append (a) (s : State) : exec (.append a) s = .next s.appendByte := rfl
@[simp] theorem exec_close (a) (s : State) : exec (.close a) s = .next s.closeWindow := rfl
@[simp] theorem exec_appendClose (a) (s : State) : exec (.appendClose a) s = .next s.appendByte.closeWindow := rfl
@[simp] theorem exec_hold (v k l) (s : State) : exec (.hold v k l) s = .next s := rfl
@[simp] theorem exec_portAck (v k l) (s : State) : exec (.portAck v k l) s = .next s.clearWindow := rfl

/-- A frame row presents the result of its trailer's markers and its fields; as a Ping it has no words. -/
theorem exec_frameRow {code : BitVec 3} {words : List Byte} (hping : code = 0#3 → words = []) (rsv : BitVec 5) (user : Byte)
    (t : Trailer) (tail : List Byte) (s : State) :
    exec (frameRow code rsv user words t tail) s = .next (s.present (frameResult (frameTypeOf code) user words t s.ts s.te)) := by
  unfold frameRow frameTypeOf
  split_ifs with h0
  · rw [hping h0, exec_ping]
  all_goals rfl

/-! ### Which result is presented, and where -/

section
variable {T : Type} (ty : FrameType) (user : Byte) (words : List Byte) {t : Trailer} (ts te : T)

theorem frameResult_ok (heof : t.eof = 0x6#4) (hpost : t.postamble = 0xF#4) :
    frameResult ty user words t ts te = .ok ⟨ty, user, words, t.crc, frameTagOf t.tag, ts, te⟩ := by
  rw [frameResult, if_neg (not_not_intro heof), if_neg (not_not_intro hpost)]

theorem frameResult_badEndMarker (heof : t.eof ≠ 0x6#4) : frameResult ty user words t ts te = .reject .badEndMarker := by
  rw [frameResult, if_pos heof]

theorem frameResult_badPostamble (heof : t.eof = 0x6#4) (hpost : t.postamble ≠ 0xF#4) :
    frameResult ty user words t ts te = .reject .badPostamble := by
  rw [frameResult, if_neg (not_not_intro heof), if_pos hpost]

end

/-- In COLLECT a presented result shows nothing (R23). -/
theorem State.present_collect {s : State} (hd : s.done = false) (r : FrameResult Nat) :
    s.present r = { s with seen := Outputs.collecting } := by
  simp [State.present, State.resultShown, hd, outputsOf, outErrOf, Outputs.collecting]

/-- For an overflowed window the refusal is shown in the place of any result (R108). -/
theorem State.present_overflow {s : State} (hd : s.done = true) (ho : s.ovf = true) (r : FrameResult Nat) :
    s.present r = { s with seen := Outputs.overflow } := by
  simp [State.present, State.resultShown, hd, ho, outputsOf, outErrOf, Outputs.overflow]

/-- In HOLD of a window that did not overflow the result itself is shown (R23). -/
theorem State.present_hold {s : State} (hd : s.done = true) (ho : s.ovf = false) (r : FrameResult Nat) :
    s.present r = { s with seen := outputsOf true (some (.result r)) s.ports.rdIdx } := by
  simp [State.present, State.resultShown, hd, ho]

/-- A rejection shows its code and nothing else (R113). -/
@[simp] theorem outputsOf_reject (e : DecodeError) (rd : Nat) :
    outputsOf true (some (.result (.reject e))) rd = Outputs.rejected (errorCode e) := rfl

/-- The four rows of format V present a frame of their variant. -/
theorem exec_of_mem_formatV {raw : BitVec 3} {rsv : BitVec 5} {user : Byte} {words : List Byte} {t : Trailer} {i : Instr}
    (hi : i ∈ [Instr.data rsv user words t, .frameAck rsv user words t, .nak rsv user words t, .unknown raw rsv user words t]) :
    ∃ ty, ∀ s : State, exec i s = .next (s.present (frameResult ty user words t s.ts s.te)) := by
  simp only [List.mem_cons, List.not_mem_nil, or_false] at hi
  rcases hi with rfl | rfl | rfl | rfl
  · exact ⟨.data, fun s => exec_data rsv user words t s⟩
  · exact ⟨.ack, fun s => exec_frameAck rsv user words t s⟩
  · exact ⟨.nak, fun s => exec_nak rsv user words t s⟩
  · exact ⟨.unknown raw, fun s => exec_unknown raw rsv user words t s⟩

/-- The outputs of a presented frame, the index selecting its word below the number of words (R23, R94). -/
theorem outputsOf_frame (ty : FrameType) (user : Byte) (words : List Byte) (crc tag : Byte) (ts te rd : Nat) :
    outputsOf true (some (.result (.ok ⟨ty, user, words, crc, tag, ts, te⟩))) rd =
      { inReady := false, outValid := true, outOk := true, outErr := 0#3, outType := typeCodeOf ty,
        outTypeUnknown := typeUnknownFlag (typeCodeOf ty), outUser := user, outNwords := words.length, outCrc := crc,
        outTag := tag, outTs := ts, outTe := te, rdWord := if rd < words.length then words.getD rd 0#8 else 0#8 } := by
  have hword : (if rd < words.length then words.getD rd 0#8 else 0#8) = dataWord words rd := by
    split_ifs with hrd
    · rfl
    · exact (dataWord_of_le (Nat.le_of_not_lt hrd)).symm
  rw [hword]
  rfl

/-- Settles O26: PING presents the result of its trailer's markers. -/
theorem pingPresentsItsFrame : Obligations.PingPresentsItsFrame := by
  unfold Obligations.PingPresentsItsFrame
  intro rsv user t tail s hd ho
  rw [exec_ping, State.present_hold hd ho]
  refine ⟨fun heof hpost => ?frame, fun heof => ?badEnd, fun heof hpost => ?badPostamble⟩
  case frame =>
    rw [frameResult_ok _ _ _ _ _ heof hpost, outputsOf_frame, List.getD_nil, ite_self]
    rfl
  case badEnd => rw [frameResult_badEndMarker _ _ _ _ _ heof]; rfl
  case badPostamble => rw [frameResult_badPostamble _ _ _ _ _ heof hpost]; rfl

/-- Settles O27: each of the rows presents the result of its trailer's markers, a frame of its own variant. -/
theorem formatVRowsPresentTheirFrames : Obligations.FormatVRowsPresentTheirFrames := by
  unfold Obligations.FormatVRowsPresentTheirFrames
  intro raw rsv user words t s hd ho hraw shown
  refine ⟨fun heof hpost => ?frame, fun i hi => ?rejection⟩
  case frame =>
    have hshown (ty : FrameType) {unknown : Bool} (hflag : typeUnknownFlag (typeCodeOf ty) = unknown) :
        s.present (frameResult ty user words t s.ts s.te) = { s with seen := shown (typeCodeOf ty) unknown } := by
      rw [State.present_hold hd ho, frameResult_ok _ _ _ _ _ heof hpost, outputsOf_frame, hflag]
      rfl
    have hunknown : typeUnknownFlag raw = true := by revert raw; decide
    exact ⟨congrArg Host.Outcome.next (hshown .data rfl), congrArg Host.Outcome.next (hshown .ack rfl),
      congrArg Host.Outcome.next (hshown .nak rfl), congrArg Host.Outcome.next (hshown (.unknown raw) hunknown)⟩
  case rejection =>
    obtain ⟨ty, hexec⟩ := exec_of_mem_formatV hi
    rw [hexec, State.present_hold hd ho]
    refine ⟨fun heof => ?badEnd, fun heof hpost => ?badPostamble⟩
    case badEnd => rw [frameResult_badEndMarker _ _ _ _ _ heof]; rfl
    case badPostamble => rw [frameResult_badPostamble _ _ _ _ _ heof hpost]; rfl

/-- Settles O28: every frame row presents some result, and outside HOLD of a window that fits none is shown. -/
theorem frameRowsShowNothingOutsideAResult : Obligations.FrameRowsShowNothingOutsideAResult := by
  unfold Obligations.FrameRowsShowNothingOutsideAResult
  intro raw rsv user words tail t s i hi
  obtain ⟨r, hexec⟩ : ∃ r, exec i s = .next (s.present r) := by
    rcases List.mem_cons.mp hi with rfl | hi
    · exact ⟨_, exec_ping rsv user t tail s⟩
    · obtain ⟨ty, hexec⟩ := exec_of_mem_formatV hi
      exact ⟨_, hexec s⟩
  rw [hexec]
  exact ⟨fun hd => congrArg _ (State.present_collect hd r), fun hd ho => congrArg _ (State.present_overflow hd ho r)⟩

/-- With a right byte 0 the trailer's markers decide the verdict, so the row's result is that of the whole window (log 8). -/
theorem WindowParts.frameResult_row {T : Type} (p : WindowParts) (hfirst : p.b0 = 0xF9#8) (ts te : T) :
    frameResult (frameTypeOf (typeCode p.b1)) p.user p.words (trailerOf p.crc p.tagEof p.post) ts te =
      resultOfVerdict p.verdict (p.frame ts te) := by
  obtain ⟨hpreamble, hsof⟩ := eq_0xF9_iff.mp hfirst
  by_cases heof : lo p.tagEof = 0x6#4
  · by_cases hpost : hi p.post = 0xF#4
    · rw [frameResult_ok _ _ _ _ _ heof hpost, verdict, markerVerdict_eq_none.mpr ⟨hpreamble, hsof, heof, hpost⟩]
      rfl
    · rw [frameResult_badPostamble _ _ _ _ _ heof hpost, verdict, markerVerdict_badPostamble hpreamble hsof heof hpost]
      rfl
  · rw [frameResult_badEndMarker _ _ _ _ _ heof, verdict, markerVerdict_badEndMarker hpreamble hsof heof]
    rfl

/-- Settles O22: a window too short selects no row and is `TooShort`; of another the row decoder checks byte 0 and the row the
trailer, which is the verdict on the four markers in its order. -/
theorem frameRowsComputeDecode : Obligations.FrameRowsComputeDecode := by
  unfold Obligations.FrameRowsComputeDecode
  intro b s hd ho
  rcases WindowParts.short_or_bytes b with hshort | ⟨p, rfl⟩
  · simp [decodeFrame_short hshort, decodeWindow_short hshort]
  · refine ⟨fun i hi => ⟨_, p.decodeWindow_bytes s.ts s.te, ?row⟩, fun e he => ?noRow⟩
    case row =>
      obtain ⟨hfirst, rfl⟩ := WindowParts.decodeFrame_bytes_eq_ok.mp hi
      rw [← State.present_hold hd ho, ← p.frameResult_row hfirst]
      exact exec_frameRow p.words_of_ping _ _ _ _ s
    case noRow =>
      refine WindowParts.decodeWindow_bytes_eq_reject.mpr ?_
      rcases WindowParts.decodeFrame_bytes_eq_error.mp he with ⟨hpreamble, rfl⟩ | ⟨hpreamble, hsof, rfl⟩
      · exact markerVerdict_badPreamble hpreamble p.tagEof p.post
      · exact markerVerdict_badStartMarker hpreamble hsof p.tagEof p.post

end Sys2Proof.Machine
end

section
/-! PROOFS. What the port operations write, and what every instruction leaves unchanged (spec/10_state.md sections 3 to 5,
spec/20_memory.md, spec/41_port_operations.md section 2). -/

namespace Sys2Proof.Machine

/-- Settles O30: the meanings of the three operations answer the state itself. -/
theorem idleNullHoldChangeNothing : Obligations.IdleNullHoldChangeNothing := by
  unfold Obligations.IdleNullHoldChangeNothing
  exact fun v k l a s => ⟨exec_idle k l a s, exec_null a s, exec_hold v k l s⟩

/-- Settles O31: APPEND is `State.appendByte`, which stores or overflows. -/
theorem appendStoresOrOverflows : Obligations.AppendStoresOrOverflows := by
  unfold Obligations.AppendStoresOrOverflows
  intro a s
  rw [exec_append]
  exact ⟨fun hroom => congrArg _ (State.appendByte_of_lt hroom), fun hfull => congrArg _ (State.appendByte_of_le hfull)⟩

/-- Settles O32: CLOSE is `State.closeWindow`. -/
theorem closeLatchesTheMarkers : Obligations.CloseLatchesTheMarkers := by
  unfold Obligations.CloseLatchesTheMarkers
  exact fun a s => exec_close a s

/-- Settles O33: APPEND_CLOSE closes the window on the state that the append leaves, which has the same ports. -/
theorem appendCloseIsAppendThenClose : Obligations.AppendCloseIsAppendThenClose := by
  unfold Obligations.AppendCloseIsAppendThenClose
  intro a s
  refine ⟨fun hroom => ?store, fun hfull => ?overflow, s.appendByte, exec_append a s, rfl⟩
  case store => rw [exec_appendClose, State.appendByte_of_lt hroom]; rfl
  case overflow => rw [exec_appendClose, State.appendByte_of_le hfull]; rfl

/-- Settles O34: both operations are `State.clearWindow`. -/
theorem ackLeavesWhatResetLeaves : Obligations.AckLeavesWhatResetLeaves := by
  unfold Obligations.AckLeavesWhatResetLeaves
  exact fun d v k l a s => ⟨exec_portAck v k l s, (exec_portAck v k l s).trans (exec_reset d v k l a s).symm⟩

/-- What an instruction can do to a state: write the record of the output ports at most, clear the window, or append, close, or
both. -/
inductive Effect (s : State) : Instr → State → Prop
  | shows {i : Instr} (o : Outputs) (hne : ∀ a, i ≠ .append a ∧ i ≠ .appendClose a) : Effect s i { s with seen := o }
  | clears {i : Instr} (h : ∃ d v k l a, i = .reset d v k l a ∨ i = .portAck v k l) : Effect s i s.clearWindow
  | appends (a : Bool) : Effect s (.append a) s.appendByte
  | closes (a : Bool) : Effect s (.close a) s.closeWindow
  | appendsAndCloses (a : Bool) : Effect s (.appendClose a) s.appendByte.closeWindow

/-- Every instruction has one of these effects. -/
theorem exec_effect {i : Instr} {s t : State} (h : exec i s = .next t) : Effect s i t := by
  cases i <;> obtain rfl := Host.Outcome.next.inj h
  case reset d v k l a => exact .clears ⟨d, v, k, l, a, .inl rfl⟩
  case portAck v k l => exact .clears ⟨false, v, k, l, false, .inr rfl⟩
  case append a => exact .appends a
  case close a => exact .closes a
  case appendClose a => exact .appendsAndCloses a
  all_goals exact .shows _ (by simp)

/-! ### The cells -/

/-- A cell reads from the parameters and the buffer alone. -/
theorem State.cell_congr {s t : State} (hp : t.params = s.params) (hw : t.w = s.w) (c : Nat) : t.cell c = s.cell c := by
  simp only [State.cell, State.cellBits, hp, hw]

theorem State.cell_closeWindow (s : State) (c : Nat) : s.closeWindow.cell c = s.cell c :=
  State.cell_congr s.closeWindow_params s.closeWindow_w c

/-- Below `MAXLEN` the appended byte is in cell `LEN` and every other cell reads as before (R89). -/
theorem State.cell_appendByte_of_lt {s : State} (h : s.len < s.params.maxLen) :
    s.appendByte.cell s.len = .ok s.ports.inData ∧ ∀ c, c ≠ s.len → s.appendByte.cell c = s.cell c := by
  have hbits (c : Nat) : s.appendByte.cellBits c = if c = s.len then s.ports.inData else s.cellBits c := by
    rw [State.appendByte_of_lt h]
    exact s.cellBits_write s.len c s.ports.inData
  refine ⟨?_, fun c hc => ?_⟩
  · rw [State.cell_of_lt (by rwa [State.appendByte_params]), hbits, if_pos rfl]
  · simp only [State.cell, State.appendByte_params, hbits, if_neg hc]

/-- On a full buffer an append leaves every cell as it reads (R16). -/
theorem State.cell_appendByte_of_le {s : State} (h : s.params.maxLen ≤ s.len) (c : Nat) : s.appendByte.cell c = s.cell c := by
  rw [State.appendByte_of_le h]
  rfl

/-- Settles O35: of the effects of an instruction only the append writes the buffer. -/
theorem onlyTheCellAtLenIsStored : Obligations.OnlyTheCellAtLenIsStored := by
  unfold Obligations.OnlyTheCellAtLenIsStored
  intro i s t h
  cases exec_effect h with
  | shows o hne =>
    refine ⟨fun ⟨a, ha⟩ => ?_, fun _ c => rfl⟩
    exact absurd ha (not_or.mpr (hne a))
  | clears hclear =>
    refine ⟨fun ⟨a, ha⟩ => ?_, fun _ c => rfl⟩
    obtain ⟨d, v, k, l, a', rfl | rfl⟩ := hclear <;> simp at ha
  | appends a =>
    exact ⟨fun _ hroom => State.cell_appendByte_of_lt hroom, fun hnot c => State.cell_appendByte_of_le (by simpa using hnot) c⟩
  | closes a =>
    exact ⟨by simp, fun _ c => s.cell_closeWindow c⟩
  | appendsAndCloses a =>
    simp only [State.cell_closeWindow]
    exact ⟨fun _ hroom => State.cell_appendByte_of_lt hroom, fun hnot c => State.cell_appendByte_of_le (by simpa using hnot) c⟩

/-- An append moves `LEN` and `OVF` as R15 and R16 say. -/
theorem State.appendByte_moves (s : State) :
    (s.appendByte.ovf ≠ s.ovf → s.appendByte.ovf = true ∧ s.params.maxLen ≤ s.len) ∧
    (s.appendByte.len ≠ s.len → s.appendByte.len = s.len + 1 ∧ s.len < s.params.maxLen) := by
  rcases s.appendByte_cases with ⟨hroom, happend⟩ | ⟨hfull, happend⟩
  · simp [happend, hroom]
  · simp [happend, hfull]

/-- Settles O36: each effect of an instruction moves the registers that the spec names for it. -/
theorem onlyTheNamedOperationsWriteEachRegister : Obligations.OnlyTheNamedOperationsWriteEachRegister := by
  unfold Obligations.OnlyTheNamedOperationsWriteEachRegister
  intro i s t h closing appending clearing
  cases exec_effect h with
  | shows o _ => simp
  | clears hclear =>
    have hclearing : clearing := hclear
    simp [hclearing]
  | appends a =>
    have happending : appending := ⟨a, .inl rfl⟩
    obtain ⟨hovf, hlen⟩ := s.appendByte_moves
    refine ⟨by simp, fun hne => .inl ?_, fun hne => .inl ?_, by simp, by simp, by simp⟩
    · obtain ⟨hset, hfull⟩ := hovf hne
      exact ⟨hset, happending, hfull⟩
    · obtain ⟨hcount, hroom⟩ := hlen hne
      exact ⟨hcount, happending, hroom⟩
  | closes a =>
    have hclosing : closing := ⟨a, .inl rfl⟩
    simp [hclosing]
  | appendsAndCloses a =>
    have happending : appending := ⟨a, .inr rfl⟩
    have hclosing : closing := ⟨a, .inr rfl⟩
    obtain ⟨hovf, hlen⟩ := s.appendByte_moves
    refine ⟨fun _ => .inl ⟨rfl, hclosing⟩, fun hne => .inl ?_, fun hne => .inl ?_, fun _ => ⟨?_, hclosing⟩,
      fun _ => ⟨?_, hclosing⟩, by simp⟩
    · obtain ⟨hset, hfull⟩ := hovf hne
      exact ⟨hset, happending, hfull⟩
    · obtain ⟨hcount, hroom⟩ := hlen hne
      exact ⟨hcount, happending, hroom⟩
    · simp
    · simp

end Sys2Proof.Machine
end

section
/-! PROOFS. One step: the outputs settle, then the port operation runs at the edge (spec/41_port_operations.md sections 1 and 4,
spec/10_state.md sections 5 to 8). -/

namespace Sys2Proof.Machine

/-! ### Settling, case by case -/

/-- Settling an overflowed window shows the refusal (R23, R108). -/
theorem settle_overflow {s : State} (hd : s.done = true) (ho : s.ovf = true) :
    settle s = .next { s with seen := Outputs.overflow } := by
  simp [settle, hd, ho, State.presentNoDecode, outputsOf, outErrOf, Outputs.overflow]

/-- Settling a window that selects no row shows its rejection (R23). -/
theorem settle_noRow {s : State} {b : List Byte} {e : DecodeError} (hd : s.done = true) (ho : s.ovf = false)
    (hw : s.window = .ok b) (he : decodeFrame b = .error e) :
    settle s = .next { s with seen := Outputs.rejected (errorCode e) } := by
  have hpresent : settle s = .next (s.present (.reject e)) := by simp [settle, hd, ho, hw, he]
  rw [hpresent, State.present_hold hd ho, outputsOf_reject]

/-- Settling a window that selects a row executes the row. -/
theorem settle_row {s : State} {b : List Byte} {i : Instr} (hd : s.done = true) (ho : s.ovf = false) (hw : s.window = .ok b)
    (hi : decodeFrame b = .ok i) : settle s = exec i s := by
  simp [settle, hd, ho, hw, hi]

/-- Settling a window past the buffer faults as the read of its cells does (log 11). -/
theorem settle_fault {s : State} {f : Fault} (hd : s.done = true) (ho : s.ovf = false) (hw : s.window = .error f) :
    settle s = .fault f := by
  simp [settle, hd, ho, hw]

/-- A step is the edge on the state in which the outputs have settled. -/
theorem step_of_settle {s t : State} (h : settle s.takePorts = .next t) : step s = clockEdge t := by
  simp only [step, clockCycle, h]

/-- Settles O37: in each of the three cases the outputs settle without a row. -/
theorem stepRunsThePortOperation : Obligations.StepRunsThePortOperation := by
  unfold Obligations.StepRunsThePortOperation
  intro s after
  refine ⟨fun hd => ?collect, fun hd ho => ?overflow, fun b e hd ho hw he => ?noRow⟩
  case collect => exact step_of_settle (settle_collect (s := s.takePorts) hd)
  case overflow => exact step_of_settle (settle_overflow (s := s.takePorts) hd ho)
  case noRow => exact step_of_settle (settle_noRow (s := s.takePorts) hd ho (s.takePorts_window.trans hw) he)

/-- Settles O38: the decoded row completes and is what settles the outputs. -/
theorem stepRunsTheDecodedFrameRow : Obligations.StepRunsTheDecodedFrameRow := by
  unfold Obligations.StepRunsTheDecodedFrameRow
  intro s b i hd ho hw hi
  obtain ⟨r, hexec⟩ := exec_of_decodeFrame hi s.takePorts
  have hsettle : settle s.takePorts = exec i s.takePorts := settle_row hd ho (s.takePorts_window.trans hw) hi
  exact ⟨_, hexec, step_of_settle (hsettle.trans hexec)⟩

/-! ### The edge, case by case -/

/-- RESET and ACK clear the window (R86, R93). -/
theorem clockEdge_clears {s : State} (h : s.ports.rst = true ∨ s.done = true ∧ s.ports.outReady = true) :
    clockEdge s = .next s.clearWindow := by
  rcases clockEdge_cases s with ⟨he, -⟩ | ⟨-, hr, hkept⟩ | ⟨-, hr, hd, -⟩ | ⟨-, hr, hd, -⟩ | ⟨-, hr, hd, -⟩
  · exact he
  · rcases hkept with ⟨-, ha⟩ | ⟨hd, -⟩ | ⟨hd, -⟩ <;> simp_all
  all_goals simp [hr, hd] at h

/-- The edge always has a next state. -/
theorem clockEdge_answers (s : State) : ∃ t, clockEdge s = .next t := by
  rcases clockEdge_cases s with ⟨he, -⟩ | ⟨he, -⟩ | ⟨he, -⟩ | ⟨he, -⟩ | ⟨he, -⟩ <;> exact ⟨_, he⟩

/-- What the edge can leave: the state cleared, as it was, or with a byte appended, the window closed, or both (R85). -/
theorem clockEdge_eq_next {s t : State} (h : clockEdge s = .next t) :
    t = s.clearWindow ∨ t = s ∨ t = s.appendByte ∨ t = s.closeWindow ∨ t = s.appendByte.closeWindow := by
  rcases clockEdge_cases s with ⟨he, -⟩ | ⟨he, -⟩ | ⟨he, -⟩ | ⟨he, -⟩ | ⟨he, -⟩ <;>
    simp [Host.Outcome.next.inj (h.symm.trans he)]

/-- The edge keeps the record of the cycle's outputs. -/
theorem clockEdge_seen {s t : State} (h : clockEdge s = .next t) : t.seen = s.seen := by
  rcases clockEdge_eq_next h with rfl | rfl | rfl | rfl | rfl <;> simp

/-! ### Steps that complete -/

/-- With `LEN` in its range a step is the edge on the caller's ports with some record of the outputs. -/
theorem step_eq_clockEdge {s : State} (hlen : s.len ≤ s.params.maxLen) :
    ∃ o, step s = clockEdge { s.takePorts with seen := o } := by
  obtain ⟨o, ho⟩ := settle_of_le (s := s.takePorts) hlen
  exact ⟨o, step_of_settle ho⟩

/-- Settles O42: with `LEN` in its range the outputs settle, and the edge always has a next state. -/
theorem stepNeverStops : Obligations.StepNeverStops := by
  unfold Obligations.StepNeverStops
  intro s hlen
  obtain ⟨o, hstep⟩ := step_eq_clockEdge hlen
  obtain ⟨t, ht⟩ := clockEdge_answers { s.takePorts with seen := o }
  exact ⟨t, hstep.trans ht⟩

/-- Reading cells past the buffer faults on the first one that does not exist (R14, log 11). -/
theorem State.cells_eq_fault {s : State} {n i : Nat} (hi : i ≤ s.params.maxLen) (hpast : s.params.maxLen < i + n) :
    s.cells i n = .error (.noSuchCell s.params.maxLen) := by
  induction n generalizing i with
  | zero => omega
  | succ n ih =>
    rcases Nat.lt_or_eq_of_le hi with hlt | rfl
    · simp [State.cells, State.cell_of_lt hlt, ih (i := i + 1) (by omega) (by omega), bind, Except.bind]
    · simp [State.cells, State.cell, bind, Except.bind]

/-- Settles O55: the read of the window faults past the buffer; in every other state the outputs settle and the edge completes. -/
theorem stepStopsOnlyPastTheBuffer : Obligations.StepStopsOnlyPastTheBuffer := by
  unfold Obligations.StepStopsOnlyPastTheBuffer
  intro s
  refine ⟨fun hd ho hpast => ?fault, fun h => ?completes⟩
  case fault =>
    have hw : s.takePorts.window = .error (.noSuchCell s.params.maxLen) := by
      rw [s.takePorts_window, State.window, State.cells_eq_fault (Nat.zero_le _) (by omega)]
    simp only [step, clockCycle, settle_fault (s := s.takePorts) hd ho hw]
  case completes =>
    have hsettle : ∃ u, settle s.takePorts = .next u := by
      rcases h with hd | ho | hlen
      · exact ⟨_, settle_collect (s := s.takePorts) hd⟩
      · cases hd : s.done with
        | false => exact ⟨_, settle_collect (s := s.takePorts) hd⟩
        | true => exact ⟨_, settle_overflow (s := s.takePorts) hd ho⟩
      · obtain ⟨o, ho⟩ := settle_of_le (s := s.takePorts) hlen
        exact ⟨_, ho⟩
    obtain ⟨u, hu⟩ := hsettle
    obtain ⟨t, ht⟩ := clockEdge_answers u
    exact ⟨t, (step_of_settle hu).trans ht⟩

/-! ### The invariant -/

/-- Settles O40: nothing is stored, and the rest are the model's own constants. -/
theorem resetHasTheInvariant : Obligations.ResetHasTheInvariant where
  params := by decide
  memWf := rfl
  memBelow := rfl
  lenLe := by decide
  ovfFull := by decide
  written i hi := absurd hi (Nat.not_lt_zero i)
  tsFits := by decide
  teFits := by decide

namespace State.Inv

/-- The invariant reads neither the ports nor the records of the model. -/
theorem afterSettle {s : State} (h : s.Inv) (o : Outputs) : { s.takePorts with seen := o }.Inv :=
  { params := h.params, memWf := h.memWf, memBelow := h.memBelow, lenLe := h.lenLe, ovfFull := h.ovfFull, written := h.written,
    tsFits := h.tsFits, teFits := h.teFits }

theorem clearWindow {s : State} (h : s.Inv) : s.clearWindow.Inv where
  params := h.params
  memWf := h.memWf
  memBelow := h.memBelow
  lenLe := Nat.zero_le _
  ovfFull hovf := absurd hovf Bool.false_ne_true
  written i hi := absurd hi (Nat.not_lt_zero i)
  tsFits := h.tsFits
  teFits := h.teFits

/-- The latched markers are those on the ports, which carry `TW` bits (R19). -/
theorem closeWindow {s : State} (h : s.Inv) (hts : s.ports.inTs < 2 ^ s.params.tw) (hte : s.ports.inTe < 2 ^ s.params.tw) :
    s.closeWindow.Inv :=
  { params := h.params, memWf := h.memWf, memBelow := h.memBelow, lenLe := h.lenLe, ovfFull := h.ovfFull, written := h.written,
    tsFits := hts, teFits := hte }

/-- The byte is stored in the first cell above the window, which becomes the window's last one. -/
theorem store {s : State} (h : s.Inv) (hroom : s.len < s.params.maxLen) (v : Byte) :
    { s with w := s.w.write s.len v, len := s.len + 1 }.Inv where
  params := h.params
  memWf := Memory.wf_write _ _ _ h.memWf
  memBelow := Memory.below_write _ _ _ hroom h.memBelow
  lenLe := hroom
  ovfFull hovf := absurd (h.ovfFull hovf) (Nat.ne_of_lt hroom)
  written i hi := by
    rw [Memory.read_write]
    split_ifs with hlast
    · rfl
    · exact h.written i (Nat.lt_of_le_of_ne (Nat.le_of_lt_succ hi) hlast)
  tsFits := h.tsFits
  teFits := h.teFits

theorem overflow {s : State} (h : s.Inv) (hfull : s.params.maxLen ≤ s.len) : { s with ovf := true }.Inv :=
  { params := h.params, memWf := h.memWf, memBelow := h.memBelow, lenLe := h.lenLe,
    ovfFull := fun _ => Nat.le_antisymm h.lenLe hfull, written := h.written, tsFits := h.tsFits, teFits := h.teFits }

theorem appendByte {s : State} (h : s.Inv) : s.appendByte.Inv := by
  rcases s.appendByte_cases with ⟨hroom, happend⟩ | ⟨hfull, happend⟩
  · rw [happend]
    exact h.store hroom _
  · rw [happend]
    exact h.overflow hfull

end State.Inv

/-- The edge keeps the invariant, the marker ports carrying `TW` bits. -/
theorem clockEdge_keeps_inv {s t : State} (h : s.Inv) (hts : s.ports.inTs < 2 ^ s.params.tw)
    (hte : s.ports.inTe < 2 ^ s.params.tw) (ht : clockEdge s = .next t) : t.Inv := by
  rcases clockEdge_eq_next ht with rfl | rfl | rfl | rfl | rfl
  · exact h.clearWindow
  · exact h
  · exact h.appendByte
  · exact h.closeWindow hts hte
  · exact h.appendByte.closeWindow (by simpa using hts) (by simpa using hte)

/-- Settles O41: settling writes the record of the outputs alone, sampling the ports keeps `TW` bits of a marker, and each operation of
the edge keeps the invariant. -/
theorem stepKeepsTheInvariant : Obligations.StepKeepsTheInvariant := by
  unfold Obligations.StepKeepsTheInvariant
  intro s t hinv hstep
  obtain ⟨o, -, hedge⟩ := step_eq_next hstep
  have hpow : 0 < 2 ^ s.params.tw := Nat.two_pow_pos _
  exact clockEdge_keeps_inv (hinv.afterSettle o) (Nat.mod_lt _ hpow) (Nat.mod_lt _ hpow) hedge

/-- A cell below `MAXLEN` holds the byte received at its place (R27 item 3). -/
theorem State.Received.cell {p : Params} {b : List Byte} {s : State} {i : Nat} {v : Byte} (h : s.Received p b) (hi : i < p.maxLen)
    (hv : b[i]? = some v) : s.cell i = .ok v := by
  rw [State.cell_of_lt (by rwa [h.params]), h.cells i v hi hv]

/-- Settles O43: a run of cycles that keep the window open collects the bytes that they deliver. -/
theorem collectKeepsTheBytesInOrder : Obligations.CollectKeepsTheBytesInOrder := by
  unfold Obligations.CollectKeepsTheBytesInOrder
  intro s script rest hempty hpending hopen
  obtain ⟨t, hrun, hrest, hcollect, hreceived⟩ := run_keepsOpen script rest hempty hpending hopen
  refine ⟨t, hrun 0, hrest, hcollect, hreceived.len, hreceived.ovf, fun i v hi hv => hreceived.cell hi hv⟩

/-! ### The outputs of a cycle and of the states around it -/

/-- A state's outputs are read from `DONE`, `OVF`, and in HOLD from the window and its markers (R23, R25). -/
theorem State.outputs_congr {s t : State} (hd : t.done = s.done) (ho : t.ovf = s.ovf) (hw : t.window = s.window)
    (hmarkers : s.done = true → t.ts = s.ts ∧ t.te = s.te) (rd : Nat) : t.outputs rd = s.outputs rd := by
  cases hphase : s.done with
  | false => rw [State.outputs_collect hphase, State.outputs_collect (hd.trans hphase)]
  | true =>
    obtain ⟨hts, hte⟩ := hmarkers hphase
    simp only [State.outputs, State.result, hd, ho, hw, hts, hte]

/-- What settling records is the output function at the caller's index (R84). -/
theorem outputs_of_settle {s t : State} (h : settle s = .next t) : s.outputs s.ports.rdIdx = .ok t.seen := by
  cases hd : s.done with
  | false =>
    obtain rfl := Host.Outcome.next.inj ((settle_collect hd).symm.trans h)
    exact State.outputs_collect hd _
  | true =>
    cases ho : s.ovf with
    | true =>
      obtain rfl := Host.Outcome.next.inj ((settle_overflow hd ho).symm.trans h)
      exact State.outputs_overflow hd ho _
    | false =>
      cases hw : s.window with
      | error f => simp [settle_fault hd ho hw] at h
      | ok b =>
        obtain ⟨hrow, hnoRow⟩ := frameRowsComputeDecode b s hd ho
        cases hi : decodeFrame b with
        | error e =>
          obtain rfl := Host.Outcome.next.inj ((settle_noRow hd ho hw hi).symm.trans h)
          exact State.outputs_hold hd ho hw (hnoRow e hi) _
        | ok i =>
          obtain ⟨r, hr, hexec⟩ := hrow i hi
          obtain rfl := Host.Outcome.next.inj (((settle_row hd ho hw hi).trans hexec).symm.trans h)
          exact State.outputs_hold hd ho hw hr _

/-- Settles O39: the record is made when the outputs settle, from the state before the edge, and the edge keeps it. -/
theorem stepShowsTheOutputFunction : Obligations.StepShowsTheOutputFunction := by
  unfold Obligations.StepShowsTheOutputFunction
  intro s t hstep
  obtain ⟨o, hsettle, hedge⟩ := step_eq_next hstep
  rw [clockEdge_seen hedge, ← outputs_of_settle hsettle]
  exact (State.outputs_congr (s := s) (t := s.takePorts) rfl rfl s.takePorts_window (fun _ => ⟨rfl, rfl⟩) _).symm

/-- Settles O46: the edge of a cycle of HOLD changes nothing, and the outputs read nothing else that a step writes. -/
theorem holdKeepsTheResult : Obligations.HoldKeepsTheResult := by
  unfold Obligations.HoldKeepsTheResult
  intro s hlen hd hhold
  obtain ⟨o, hstep⟩ := step_eq_clockEdge hlen
  have hedge := clockEdge_holdsResult (s := { s.takePorts with seen := o }) hd hhold
  exact ⟨_, hstep.trans hedge, rfl,
    State.outputs_congr rfl rfl (State.window_congr rfl rfl rfl) (fun _ => ⟨rfl, rfl⟩)⟩

/-- Settles O47: RESET and ACK clear the window at the edge, a closing beat closes it. -/
theorem everyPhaseIsLeftInOneStep : Obligations.EveryPhaseIsLeftInOneStep := by
  unfold Obligations.EveryPhaseIsLeftInOneStep
  intro s hlen
  obtain ⟨o, hstep⟩ := step_eq_clockEdge hlen
  refine ⟨fun hr => ?reset, fun _ hd ha => ?ack, fun hd hclose => ?close⟩
  case reset => exact ⟨_, hstep.trans (clockEdge_clears (.inl hr)), ⟨rfl, rfl, rfl⟩, rfl, rfl, rfl⟩
  case ack => exact ⟨_, hstep.trans (clockEdge_clears (.inr ⟨hd, ha⟩)), rfl, rfl, rfl⟩
  case close => exact ⟨_, hstep.trans (clockEdge_closesWindow hd hclose), rfl⟩

end Sys2Proof.Machine
end

section
/-! PROOFS. Ports that carry no meaning do not matter (spec/41_port_operations.md section 1). -/

namespace Sys2Proof.Machine

/-- Closing two windows that are the same so far, with the same markers on the ports, leaves the same pieces of state. -/
theorem State.core_closeWindow {s t : State} (h : s.core = t.core) (hts : s.ports.inTs = t.ports.inTs)
    (hte : s.ports.inTe = t.ports.inTe) : s.closeWindow.core = t.closeWindow.core := by
  simp only [State.core, Prod.mk.injEq] at h
  obtain ⟨hw, hl, ho, -, -, -⟩ := h
  simp [State.core, hw, hl, ho, hts, hte]

/-- The cycles of two callers accept the same beat when both offer the same byte or none. -/
theorem State.core_acceptBeat_atEdge (s : State) {p q : Inputs} (hv : p.inValid = q.inValid)
    (hk : p.inValid = true → p.inKeep = q.inKeep) (hdata : p.inValid = true → p.inKeep = true → p.inData = q.inData)
    (rest : List Inputs) (o o' : Outputs) : (s.atEdge p rest o).acceptBeat.core = (s.atEdge q rest o').acceptBeat.core := by
  have haccept (i : Inputs) (o : Outputs) : (s.atEdge i rest o).acceptBeat =
      if i.inValid && i.inKeep then (s.atEdge i rest o).appendByte else s.atEdge i rest o := rfl
  rw [haccept, haccept, ← hv]
  cases hpv : p.inValid with
  | false => rfl
  | true =>
    rw [← hk hpv]
    cases hpk : p.inKeep with
    | false => rfl
    | true =>
      rcases Nat.lt_or_ge s.len s.params.maxLen with hroom | hfull
      · rw [State.appendByte_of_lt (s := s.atEdge p rest o) hroom, State.appendByte_of_lt (s := s.atEdge q rest o') hroom]
        simp [State.core, State.atEdge, fitPorts, hdata hpv hpk]
      · rw [State.appendByte_of_le (s := s.atEdge p rest o) hfull, State.appendByte_of_le (s := s.atEdge q rest o') hfull]
        rfl

/-- In HOLD the edge reads `rst` and `out_ready` alone. -/
theorem clockEdge_core_hold {s t u : State} {p q : Inputs} {rest : List Inputs} {o o' : Outputs} (hd : s.done = true)
    (ht : clockEdge (s.atEdge p rest o) = .next t) (hu : clockEdge (s.atEdge q rest o') = .next u) (hpr : p.rst = false)
    (hqr : q.rst = false) (ha : p.outReady = q.outReady) : t.core = u.core := by
  cases hpa : p.outReady with
  | true =>
    have hqa : q.outReady = true := ha.symm.trans hpa
    obtain rfl := Host.Outcome.next.inj (ht.symm.trans (clockEdge_clears (s := s.atEdge p rest o) (.inr ⟨hd, hpa⟩)))
    obtain rfl := Host.Outcome.next.inj (hu.symm.trans (clockEdge_clears (s := s.atEdge q rest o') (.inr ⟨hd, hqa⟩)))
    rfl
  | false =>
    have hp : holdsResult p = true := by simp [holdsResult, hpr, hpa]
    have hq : holdsResult q = true := by simp [holdsResult, hqr, ← ha, hpa]
    obtain rfl := Host.Outcome.next.inj (ht.symm.trans (clockEdge_holdsResult (s := s.atEdge p rest o) hd hp))
    obtain rfl := Host.Outcome.next.inj (hu.symm.trans (clockEdge_holdsResult (s := s.atEdge q rest o') hd hq))
    rfl

/-- In COLLECT the edge reads of a beat what the beat's own flags give a meaning. -/
theorem clockEdge_core_collect {s t u : State} {p q : Inputs} {rest : List Inputs} {o o' : Outputs} (hd : s.done = false)
    (ht : clockEdge (s.atEdge p rest o) = .next t) (hu : clockEdge (s.atEdge q rest o') = .next u) (hpr : p.rst = false)
    (hqr : q.rst = false) (hv : p.inValid = q.inValid)
    (hbeat : p.inValid = true →
      p.inKeep = q.inKeep ∧ p.inLast = q.inLast ∧ (p.inKeep = true → p.inData = q.inData) ∧
        (p.inLast = true → p.inTs = q.inTs ∧ p.inTe = q.inTe)) :
    t.core = u.core := by
  have haccept : (s.atEdge p rest o).acceptBeat.core = (s.atEdge q rest o').acceptBeat.core :=
    s.core_acceptBeat_atEdge hv (fun h => have ⟨hk, _⟩ := hbeat h; hk) (fun h => have ⟨_, _, hdata, _⟩ := hbeat h; hdata)
      rest o o'
  cases hclose : p.inValid && p.inLast with
  | true =>
    obtain ⟨hpv, hpl⟩ : p.inValid = true ∧ p.inLast = true := by simpa using hclose
    obtain ⟨-, hl, -, hmarkers⟩ := hbeat hpv
    obtain ⟨hts, hte⟩ := hmarkers hpl
    have hp : closesWindow p = true := by simp [closesWindow, hpr, hpv, hpl]
    have hq : closesWindow q = true := by simp [closesWindow, hqr, ← hv, hpv, ← hl, hpl]
    obtain rfl := Host.Outcome.next.inj (ht.symm.trans (clockEdge_closesWindow (s := s.atEdge p rest o) hd hp))
    obtain rfl := Host.Outcome.next.inj (hu.symm.trans (clockEdge_closesWindow (s := s.atEdge q rest o') hd hq))
    exact State.core_closeWindow haccept (by simp [fitPorts, hts]) (by simp [fitPorts, hte])
  | false =>
    have hsame : (q.inValid && q.inLast) = (p.inValid && p.inLast) := by
      rw [← hv]
      cases hpv : p.inValid with
      | false => rfl
      | true =>
        obtain ⟨-, hl, -⟩ := hbeat hpv
        rw [hl]
    have hp : keepsOpen p = true := by simp only [keepsOpen, hpr, hclose, Bool.not_false, Bool.and_self]
    have hq : keepsOpen q = true := by simp only [keepsOpen, hqr, hsame, hclose, Bool.not_false, Bool.and_self]
    obtain rfl := Host.Outcome.next.inj (ht.symm.trans (clockEdge_keepsOpen (s := s.atEdge p rest o) hd hp))
    obtain rfl := Host.Outcome.next.inj (hu.symm.trans (clockEdge_keepsOpen (s := s.atEdge q rest o') hd hq))
    exact haccept

/-- A step on scripted ports that completes is the edge of that cycle. -/
theorem clockEdge_of_step_scripted {s t : State} {i : Inputs} {rest : List Inputs}
    (h : step { s with pending := i :: rest } = .next t) : ∃ o, clockEdge (s.atEdge i rest o) = .next t := by
  obtain ⟨o, -, hedge⟩ := step_eq_next h
  exact ⟨o, hedge⟩

/-- Settles O48: only the edge writes the six pieces of state, and in each phase it reads the ports that the two cycles share. -/
theorem ignoredPortsDoNotMatter : Obligations.IgnoredPortsDoNotMatter := by
  unfold Obligations.IgnoredPortsDoNotMatter
  intro s p q rest t u hp hq hr hhold hcollect
  obtain ⟨o, ht⟩ := clockEdge_of_step_scripted hp
  obtain ⟨o', hu⟩ := clockEdge_of_step_scripted hq
  cases hpr : p.rst with
  | true =>
    have hqr : q.rst = true := hr.symm.trans hpr
    obtain rfl := Host.Outcome.next.inj (ht.symm.trans (clockEdge_clears (s := s.atEdge p rest o) (.inl hpr)))
    obtain rfl := Host.Outcome.next.inj (hu.symm.trans (clockEdge_clears (s := s.atEdge q rest o') (.inl hqr)))
    rfl
  | false =>
    have hqr : q.rst = false := hr.symm.trans hpr
    cases hd : s.done with
    | true => exact clockEdge_core_hold hd ht hu hpr hqr (hhold hpr hd)
    | false =>
      obtain ⟨hv, hbeat⟩ := hcollect hpr hd
      exact clockEdge_core_collect hd ht hu hpr hqr hv hbeat

end Sys2Proof.Machine
end

section
/-! PROOFS. The output ports (spec/10_state.md sections 6 and 7, spec/60_exceptions.md sections 1 to 3). -/

namespace Sys2Proof.Machine

/-! ### What is hidden -/

/-- A read of cells depends on those cells alone. -/
theorem State.cells_congr_of_cell {s t : State} {i n : Nat} (h : ∀ j, i ≤ j → j < i + n → s.cell j = t.cell j) :
    s.cells i n = t.cells i n := by
  induction n generalizing i with
  | zero => rfl
  | succ n ih =>
    have hfirst : s.cell i = t.cell i := h i (Nat.le_refl i) (by omega)
    have hrest : s.cells (i + 1) n = t.cells (i + 1) n := ih fun j hij hjn => h j (by omega) (by omega)
    simp only [State.cells, hfirst, hrest]

/-- Settles O49: the output function reads the cells below `LEN`, and the markers in HOLD alone. -/
theorem hiddenStateIsUnobservable : Obligations.HiddenStateIsUnobservable := by
  unfold Obligations.HiddenStateIsUnobservable
  intro s s' _ hl ho hd hcells hmarkers rd
  have hw : s.window = s'.window := by
    rw [State.window, State.window, ← hl]
    exact State.cells_congr_of_cell fun j _ hj => hcells j (by omega)
  exact State.outputs_congr hd ho hw (fun hd' => hmarkers (hd.trans hd')) rd

/-! ### What is shown -/

/-- Everything the output ports can show (R23): the empty record in COLLECT, the refusal for an overflowed window, else the rejection
or the frame that `decode` answers. -/
theorem State.outputs_cases {s : State} {rd : Nat} {o : Outputs} (h : s.outputs rd = .ok o) :
    (s.done = false ∧ o = Outputs.collecting) ∨ (s.done = true ∧ s.ovf = true ∧ o = Outputs.overflow) ∨
    (s.done = true ∧ s.ovf = false ∧ ∃ b, s.window = .ok b ∧
      ((∃ e, decodeWindow b s.ts s.te = .ok (.reject e) ∧ o = Outputs.rejected (errorCode e)) ∨
        ∃ f, decodeWindow b s.ts s.te = .ok (.ok f) ∧ o = outputsOf true (some (.result (.ok f))) rd)) := by
  cases hd : s.done with
  | false => exact .inl ⟨rfl, Except.ok.inj (h.symm.trans (State.outputs_collect hd rd))⟩
  | true =>
    cases ho : s.ovf with
    | true => exact .inr (.inl ⟨rfl, rfl, Except.ok.inj (h.symm.trans (State.outputs_overflow hd ho rd))⟩)
    | false =>
      cases hw : s.window with
      | error f => simp [State.outputs, State.result, hd, ho, hw, bind, Except.bind] at h
      | ok b =>
        obtain ⟨r, hr⟩ := decodeWindow_answers b s.ts s.te
        obtain rfl := Except.ok.inj (h.symm.trans (State.outputs_hold hd ho hw hr rd))
        refine .inr (.inr ⟨rfl, rfl, b, rfl, ?_⟩)
        cases r with
        | reject e => exact .inl ⟨e, hr, outputsOf_reject e rd⟩
        | ok f => exact .inr ⟨f, hr, rfl⟩

/-- Settles O54: with `OVF` set the output function reads nothing of the buffer. -/
theorem overflowOutranksTheWindow : Obligations.OverflowOutranksTheWindow := by
  unfold Obligations.OverflowOutranksTheWindow
  exact fun s rd hd ho => State.outputs_overflow hd ho rd

/-- Settles O51: without a frame the record is the empty one with the phase and the code. -/
theorem noPartialOutput : Obligations.NoPartialOutput := by
  unfold Obligations.NoPartialOutput
  intro s rd o h hok
  rcases State.outputs_cases h with ⟨hd, rfl⟩ | ⟨hd, -, rfl⟩ | ⟨hd, -, b, -, ⟨e, -, rfl⟩ | ⟨f, -, rfl⟩⟩
  · rw [hd]; rfl
  · rw [hd]; rfl
  · rw [hd]; rfl
  · exact absurd hok Bool.true_eq_false.mp

/-- The words of an accepted window number 6 less than its bytes at most (R39). -/
theorem dataWords_length_le {T : Type} {b : List Byte} {ts te : T} {f : DecodedFrame T} (h : decodeWindow b ts te = .ok (.ok f)) :
    f.dataWords.length ≤ b.length - 6 := by
  obtain ⟨p, rfl, -, rfl⟩ := WindowParts.exists_of_accepted h
  rw [p.frame_dataWords, p.bytes_length]
  omega

/-- Settles O53: a presented frame is that of a window in the buffer; in every other case the ports are 0. -/
theorem outputsStayInRange : Obligations.OutputsStayInRange := by
  unfold Obligations.OutputsStayInRange
  intro s rd o h
  have hpow : 0 < 2 ^ s.params.tw := Nat.two_pow_pos _
  have htag : (0#8).toNat ≤ 15 := by decide
  have hflag : false = (0#3).getLsbD 2 := by decide
  rcases State.outputs_cases h with ⟨-, rfl⟩ | ⟨-, -, rfl⟩ | ⟨-, -, b, hw, ⟨e, -, rfl⟩ | ⟨f, hf, rfl⟩⟩
  case inr.inr.inr =>
    obtain ⟨hlen, hb⟩ := State.window_eq_ok hw
    have hlength : b.length = s.len := by simp [hb]
    have hwords : f.dataWords.length ≤ b.length - 6 := dataWords_length_le hf
    obtain ⟨p, -, -, rfl⟩ := WindowParts.exists_of_accepted hf
    refine ⟨?words, Nat.le_of_lt_succ (frameTagOf_toNat_lt (hi p.tagEof)), rfl, id, id⟩
    case words => exact hwords.trans (by omega)
  all_goals exact ⟨Nat.zero_le _, htag, hflag, fun _ => hpow, fun _ => hpow⟩

/-! ### The codes on `out_err` -/

theorem errorCode_inj {e e' : DecodeError} : errorCode e = errorCode e' ↔ e = e' := by
  cases e <;> cases e' <;> simp [errorCode]

/-- A rejection's code is neither 0, which is that of no rejection, nor 7, that of the refusal (R101). -/
theorem errorCode_ne (e : DecodeError) : errorCode e ≠ 0#3 ∧ errorCode e ≠ 7#3 := by
  cases e <;> decide

/-- `out_ok` says that the result is a frame (R22). -/
theorem outOk_outputsOf_iff {r : FrameResult Nat} {rd : Nat} :
    (outputsOf true (some (.result r)) rd).outOk = true ↔ ∃ f, r = .ok f := by
  cases r with
  | ok f => exact iff_of_true rfl ⟨f, rfl⟩
  | reject e => exact iff_of_false Bool.false_ne_true (by simp)

/-- `out_err` has the code of a rejection exactly when the result is that rejection (R101). -/
theorem outErr_outputsOf_iff {r : FrameResult Nat} {rd : Nat} (e : DecodeError) :
    (outputsOf true (some (.result r)) rd).outErr = errorCode e ↔ r = .reject e := by
  cases r with
  | ok f => exact iff_of_false (errorCode_ne e).left.symm (by simp)
  | reject e' => exact errorCode_inj.trans (by simp)

/-- `decode` never answers the rejection with code 2 (R81). -/
theorem errorCode_ne_two {T : Type} {b : List Byte} {ts te : T} {e : DecodeError} (h : decodeWindow b ts te = .ok (.reject e)) :
    errorCode e ≠ 2#3 := by
  intro hcode
  obtain rfl : e = .negativeDataLength := errorCode_inj.mp hcode
  exact negativeDataLengthIsUnreachable ⟨T, b, ts, te, h⟩

/-- Settles O50: of the four things that the ports can show, the two without `decode` are constant records; the code of a rejection
names it, and the code 0 goes with a frame. -/
theorem errorCodesOnThePort : Obligations.ErrorCodesOnThePort := by
  unfold Obligations.ErrorCodesOnThePort
  intro s rd o h
  have hnamed (b : List Byte) (hd : s.done = true) (ho : s.ovf = false) (hw : s.window = .ok b) :
      (o.outOk = true ↔ ∃ f, decodeWindow b s.ts s.te = .ok (.ok f)) ∧
      ∀ e, o.outErr = errorCode e ↔ decodeWindow b s.ts s.te = .ok (.reject e) := by
    obtain ⟨r, hr⟩ := decodeWindow_answers b s.ts s.te
    obtain rfl := Except.ok.inj (h.symm.trans (State.outputs_hold hd ho hw hr rd))
    simp only [hr, Except.ok.injEq]
    exact ⟨outOk_outputsOf_iff, outErr_outputsOf_iff⟩
  have hcodes : (o.outOk = true ↔ o.outValid = true ∧ o.outErr = 0#3) ∧ o.outErr ≠ 2#3 ∧
      (o.outErr = 0#3 ↔ o.outOk = true ∨ o.outValid = false) ∧ o.outValid = s.done ∧ o.inReady = !s.done ∧
      (o.outErr = 7#3 ↔ s.done = true ∧ s.ovf = true) := by
    rcases State.outputs_cases h with ⟨hd, rfl⟩ | ⟨hd, ho, rfl⟩ | ⟨hd, ho, b, -, ⟨e, he, rfl⟩ | ⟨f, -, rfl⟩⟩
    · simp [hd, Outputs.collecting]
    · simp [hd, ho, Outputs.overflow, Outputs.collecting]
    · obtain ⟨hzero, hseven⟩ := errorCode_ne e
      simp [hd, ho, Outputs.rejected, Outputs.collecting, hzero, hseven, errorCode_ne_two he]
    · simp [hd, ho, outputsOf, outErrOf]
  obtain ⟨hok, hnotTwo, hzero, hvalid, hready, hseven⟩ := hcodes
  refine ⟨hok, hnotTwo, hzero, hvalid, hready, fun b hd ho hw => ?named, hseven⟩
  case named =>
    obtain ⟨hframe, hcode⟩ := hnamed b hd ho hw
    exact ⟨hframe, hcode .tooShort, hcode .badPreamble, hcode .badStartMarker, hcode .badEndMarker, hcode .badPostamble⟩

end Sys2Proof.Machine
end
